-- ==== Sys2Proof/Word.lean ====
section
/-! DEFINITION. The word types of the chipigo CORE (spec 00_scope.md R6, R11). All values are unsigned. -/

namespace Sys2Proof

/-- A byte: a register, a timer, a memory cell (R21, R27, R29). -/
abbrev Byte := BitVec 8

/-- A 16-bit value: an instruction word, `PC`, `I`, a stack entry (R23, R24, R26, R80). -/
abbrev Word := BitVec 16

/-- A nibble: the class field `op` and the immediate `N` (R11). -/
abbrev Nibble := BitVec 4

/-- The 12-bit address field `NNN` (R11). -/
abbrev Addr12 := BitVec 12

/-- A register index, the fields `X` and `Y` (R11, R21): 0 to 15, all legal. -/
abbrev RegIx := Fin 16

end Sys2Proof
end

