-- ==== Sys2Proof/Syntax.lean ====
section
/-! DEFINITION. The 34 instructions (spec 30_encoding.md R85), one constructor per row of spec/opcode_table.json,
in the table's order. Each field has exactly the width of its encoding (R81), so a term has no junk values. The
ignored low nibble of the two register skips (R90) and the Y field of the two shifts (R138, R140) are kept, so
that no bit of a word is lost in decoding. -/

namespace Sys2Proof

inductive Instr where
  /-- clear-screen, `00E0` (R182) -/
  | cls
  /-- return, `00EE` (R110) -/
  | ret
  /-- jump NNN, `1NNN` (R111) -/
  | jp (nnn : Addr12)
  /-- call NNN, `2NNN` (R112) -/
  | call (nnn : Addr12)
  /-- skip-if-equal-immediate VX,NN, `3XNN` (R113) -/
  | seImm (x : RegIx) (nn : Byte)
  /-- skip-if-not-equal-immediate VX,NN, `4XNN` (R114) -/
  | sneImm (x : RegIx) (nn : Byte)
  /-- skip-if-registers-equal VX,VY, `5XYN`, N ignored (R115) -/
  | seReg (x y : RegIx) (n : Nibble)
  /-- load-immediate VX,NN, `6XNN` (R130) -/
  | ldImm (x : RegIx) (nn : Byte)
  /-- add-immediate VX,NN, `7XNN` (R131) -/
  | addImm (x : RegIx) (nn : Byte)
  /-- register move VX,VY, `8XY0` (R132) -/
  | ldReg (x y : RegIx)
  /-- OR VX,VY, `8XY1` (R133) -/
  | orReg (x y : RegIx)
  /-- AND VX,VY, `8XY2` (R134) -/
  | andReg (x y : RegIx)
  /-- XOR VX,VY, `8XY3` (R135) -/
  | xorReg (x y : RegIx)
  /-- add-registers VX,VY, `8XY4` (R136) -/
  | addReg (x y : RegIx)
  /-- subtract VX,VY, `8XY5` (R137) -/
  | subReg (x y : RegIx)
  /-- shift-right VX, `8XY6` (R138) -/
  | shr (x y : RegIx)
  /-- subtract-reverse VX,VY, `8XY7` (R139) -/
  | subnReg (x y : RegIx)
  /-- shift-left VX, `8XYE` (R140) -/
  | shl (x y : RegIx)
  /-- skip-if-registers-not-equal VX,VY, `9XYN`, N ignored (R116) -/
  | sneReg (x y : RegIx) (n : Nibble)
  /-- set-address-register NNN, `ANNN` (R160) -/
  | ldI (nnn : Addr12)
  /-- jump-with-offset NNN, `BNNN` (R117) -/
  | jpV0 (nnn : Addr12)
  /-- random VX,NN, `CXNN` (R141) -/
  | rnd (x : RegIx) (nn : Byte)
  /-- draw-sprite VX,VY,N, `DXYN` (R183) -/
  | drw (x y : RegIx) (n : Nibble)
  /-- skip-if-key-pressed VX, `EX9E` (R200) -/
  | skp (x : RegIx)
  /-- skip-if-key-not-pressed VX, `EXA1` (R201) -/
  | sknp (x : RegIx)
  /-- load-delay-timer VX, `FX07` (R202) -/
  | ldVxDt (x : RegIx)
  /-- wait-for-key VX, `FX0A` (R203) -/
  | ldVxK (x : RegIx)
  /-- set-delay-timer VX, `FX15` (R204) -/
  | ldDtVx (x : RegIx)
  /-- set-sound-timer VX, `FX18` (R205) -/
  | ldStVx (x : RegIx)
  /-- add-to-address-register VX, `FX1E` (R161) -/
  | addIVx (x : RegIx)
  /-- load-font-address VX, `FX29` (R162) -/
  | ldFVx (x : RegIx)
  /-- store-BCD VX, `FX33` (R163) -/
  | ldBVx (x : RegIx)
  /-- register-dump VX, `FX55` (R164) -/
  | ldMemVx (x : RegIx)
  /-- register-load VX, `FX65` (R165) -/
  | ldVxMem (x : RegIx)
deriving DecidableEq, Repr

end Sys2Proof
end

