-- ==== Sys2Proof/Machine/Flags.lean ====
section
/-! DEFINITION. The flag computations (spec 10_state.md R22): what each of the seven flag-writing instructions
puts into `V[15]`, from the values its operands had before it. -/

namespace Sys2Proof.Machine

/-- A flag as the byte written to `V[15]`: 1 or 0. -/
def flagByte (b : Bool) : Byte := if b then 0x01#8 else 0x00#8

/-- add-registers: 1 if the 9-bit sum exceeds 255 (R136, R142). -/
def carry (a b : Byte) : Bool := decide (255 < a.toNat + b.toNat)

/-- subtract `a - b`: 1 if no borrow, the equal case included (R137, R139, R142). -/
def noBorrow (a b : Byte) : Bool := decide (b.toNat ≤ a.toNat)

/-- shift-right: the bit shifted out, bit 0 (R138). -/
def lostRight (a : Byte) : Bool := a.getLsbD 0

/-- shift-left: the bit shifted out, bit 7 (R140). -/
def lostLeft (a : Byte) : Bool := a.getLsbD 7

/-- add-to-address-register: 1 if the new `I` is above 0x0FFF (R161). -/
def outOfRange (i : Word) : Bool := decide (0x0FFF < i.toNat)

end Sys2Proof.Machine
end

