-- ==== Sys2Proof/Config.lean ====
section
/-! DEFINITION. What an instance of the chipigo CORE fixes (spec 00_scope.md R5) and the free values of its
environment. The numeric parameters, the default `FONT`, the three quirk parameters, and the opaque functions
from which a step takes what the environment presents (keys, random byte, ticks) when no script says it. -/

namespace Sys2Proof.Config

/-- `MEM_SIZE` (R5, R29). -/
def memSize : Nat := 4096

/-- `PROG_BASE`, where the image is copied (R5, R59). -/
def progBase : Nat := 0x200

/-- `PC_RESET` (R5, R24, R261). -/
def pcReset : Word := 0x200#16

/-- `MAX_IMAGE`: the longest image that fits (R5, R59; the spec's decision D20). -/
def maxImage : Nat := 3584

/-- `GLYPH_BYTES` (R5, R162). -/
def glyphBytes : Nat := 5

/-! ### The default `FONT` (R52), glyphs 0 to F -/

def fontLow : List Byte :=
  [0xF0, 0x90, 0x90, 0x90, 0xF0] ++ [0x20, 0x60, 0x20, 0x20, 0x70]
  ++ [0xF0, 0x10, 0xF0, 0x80, 0xF0] ++ [0xF0, 0x10, 0xF0, 0x10, 0xF0]
  ++ [0x90, 0x90, 0xF0, 0x10, 0x10] ++ [0xF0, 0x80, 0xF0, 0x10, 0xF0]
  ++ [0xF0, 0x80, 0xF0, 0x90, 0xF0] ++ [0xF0, 0x10, 0x20, 0x40, 0x40]

def fontHigh : List Byte :=
  [0xF0, 0x90, 0xF0, 0x90, 0xF0] ++ [0xF0, 0x90, 0xF0, 0x10, 0xF0]
  ++ [0xF0, 0x90, 0xF0, 0x90, 0x90] ++ [0xE0, 0x90, 0xE0, 0x90, 0xE0]
  ++ [0xF0, 0x80, 0x80, 0x80, 0xF0] ++ [0xE0, 0x90, 0x90, 0x90, 0xE0]
  ++ [0xF0, 0x80, 0xF0, 0x80, 0xF0] ++ [0xF0, 0x80, 0xF0, 0x80, 0x80]

/-- The 80 bytes of the default `FONT` table (R52; the spec takes them from general knowledge, decision D6). -/
def fontBytes : List Byte := fontLow ++ fontHigh

/-- The default `FONT` as the parameter it is: exactly 80 bytes (R5, R52). -/
def font : Vector Byte 80 := ⟨fontBytes.toArray, by decide⟩

/-! ### The OPEN parameters (R5, R93, R270; decision D17) -/

/-- `Q_SHIFT_SRC`: the register the two shifts read (R138, R140). -/
inductive ShiftSrc where
  | vx
  | vy
deriving DecidableEq, Repr

/-- `Q_JUMP_REG`: the offset register of jump-with-offset (R117). -/
inductive JumpReg where
  | v0
  | vx
deriving DecidableEq, Repr

/-- The OPEN parameters of one machine instance: the three quirks and the font. They are static (R5, R93). -/
structure Params where
  /-- `Q_SHIFT_SRC` -/
  shiftSrc : ShiftSrc
  /-- `Q_MEM_INC` (R164, R165) -/
  memInc   : Bool
  /-- `Q_JUMP_REG` -/
  jumpReg  : JumpReg
  /-- `FONT` (R52), written to memory by reset -/
  font     : Vector Byte 80
deriving DecidableEq, Repr

/-- The defaults of R5, the only normative values of the quirks. -/
def defaults : Params := { shiftSrc := .vx, memInc := false, jumpReg := .v0, font := font }

/-! ### What the environment presents to one step -/

/-- The environment's choices for one step event and the gap after it (R2, R10, R236, R238, R272). -/
structure Input where
  /-- the key vector sampled by a key instruction, `KeyPressed(k) = keys[k]` (R236) -/
  keys   : BitVec 16
  /-- the byte `Rand()` returns (R238) -/
  rnd    : Byte
  /-- what a key query answers for a key number above 15 (R206, left open) -/
  farKey : Bool
  /-- where the choice among several pressed keys begins (R203, left open) -/
  pick   : Fin 16
  /-- how many `tick` events the environment issues after this step and before the next (R234, R272) -/
  ticks  : Nat
deriving DecidableEq, Repr

/-- Free: the key vector at the `n`-th step. No body: no proof can see it. -/
opaque keysAt : Nat → BitVec 16

/-- Free: the random byte at the `n`-th step. -/
opaque rndAt : Nat → Byte

/-- Free: the answer for a key number above 15 at the `n`-th step. -/
opaque farKeyAt : Nat → Bool

/-- Free: where the choice among several pressed keys begins at the `n`-th step. -/
opaque pickAt : Nat → Fin 16

/-- Free: the number of ticks after the `n`-th step. -/
opaque ticksAt : Nat → Nat

/-- The free input of the `n`-th step. -/
def input (n : Nat) : Input :=
  { keys := keysAt n, rnd := rndAt n, farKey := farKeyAt n, pick := pickAt n, ticks := ticksAt n }

end Sys2Proof.Config
end

