-- ==== Sys2Proof/Machine/State.lean ====
section
/-! DEFINITION. The state of the chipigo CORE (spec 10_state.md R20) as plain data, the reasons a step can stop,
and the state after reset (R32, R260). -/

namespace Sys2Proof.Machine

/-- The three faults (R220 to R223). A faulted step has no successor state (R229, R230, decision D11). -/
inductive Fault where
  /-- Raised by call with 16 entries on the stack (R221). Safe: the spec's own outcome, and nothing follows it. -/
  | stackOverflow
  /-- Raised by return with an empty stack (R222). Safe, as above. -/
  | stackUnderflow
  /-- Raised by the fetch, draw-sprite, store-BCD, register-dump and register-load on an address above 0xFFF;
  `addr` is the first one out of range (R56, R57, R223). Safe, as above. -/
  | outOfBoundsAccess (addr : Nat)
deriving DecidableEq, Repr

/-- The reasons the model gives no meaning. No step of the finished model raises one. -/
inductive Refusal where
  /-- Raised by `exec` for an instruction that has no meaning yet. Safe: nothing is proved about it. -/
  | notModelled (mnemonic : String)
  /-- Raised by the `reset(image)` event for an image of more than 3584 bytes (R59, R260, decision D20). Safe. -/
  | imageTooLong (length : Nat)
deriving DecidableEq, Repr

/-- `MEM` (R29): the cells that differ from the reset contents, in rising order of address. -/
abbrev Memory := List Host.Cell

/-- `FB` (R28): row `y` is `fb[y]`, and its bit `x` is the cell in column `x`; 1 is lit. -/
abbrev Framebuffer := Vector (BitVec 64) 32

/-- The whole state. The first nine fields are the architectural state of R20; the last four are the model's own. -/
structure State where
  /-- `V[0..15]` (R21); `V[15]` is the flag `VF` (R22) -/
  v       : Vector Byte 16
  /-- the address register `I` (R23) -/
  i       : Word
  /-- the program counter (R24) -/
  pc      : Word
  /-- the stack depth, 0 to 16 (R26) -/
  sp      : Fin 17
  /-- the stack entries; those below `sp` are in use (R26) -/
  stack   : Vector Word 16
  /-- the delay timer (R27) -/
  dt      : Byte
  /-- the sound timer (R27) -/
  st      : Byte
  /-- the framebuffer (R28) -/
  fb      : Framebuffer
  /-- the memory (R29) -/
  mem     : Memory
  /-- the static parameters of this machine instance (R5, R93): not state of the hardware, never changed -/
  params  : Config.Params
  /-- the model's sticky record of `Unrecognized(ins)` results, newest first (R231) -/
  reports : List Word
  /-- what the environment will present to the next steps, if placed in advance (R272) -/
  script  : List Config.Input
  /-- how many steps have drawn an input; the free inputs are functions of it -/
  draw    : Nat
deriving DecidableEq, Repr

/-- The state after `reset` with an empty image (R32, R260, R59: an empty image is legal), the default `FONT`
and the default quirks. The zeros are the spec's decision D7 (log entry 2). -/
def State.reset : State where
  v       := Vector.replicate 16 0x00#8
  i       := 0x0000#16
  pc      := Config.pcReset
  sp      := 0
  stack   := Vector.replicate 16 0x0000#16
  dt      := 0x00#8
  st      := 0x00#8
  fb      := Vector.replicate 32 0#64
  mem     := []
  params  := Config.defaults
  reports := []
  script  := []
  draw    := 0

end Sys2Proof.Machine
end

