-- ==== Sys2Proof/Machine/Ops.lean ====
section
/-! DEFINITION. The named operations over the registers, the stack, the memory, the framebuffer and the timers,
the delivery of a condition, and the `reset(image)` event. -/

namespace Sys2Proof.Machine

/-! ### Conditions (spec 60_exceptions.md) -/

/-- Delivering a fault (R9, R228): the step ends at once and its result is the fault. Nothing is saved, no mode
changes and control goes nowhere inside the machine; there is no return from it (R230). -/
def raise (f : Fault) : Host.Outcome State Fault Refusal := .fault f

/-- Delivering a report (R91, R224): the result of the step is `Unrecognized(ins)`, kept in the sticky record of
R231; nothing else changes and execution goes on. -/
def State.report (s : State) (ins : Word) : State := { s with reports := ins :: s.reports }

/-! ### Registers (R21 to R24, R27) -/

/-- `V[x]`. -/
def State.getV (s : State) (x : RegIx) : Byte := s.v[x.val]

/-- `V[x] <- b`. No register is hardwired (R21). -/
def State.setV (s : State) (x : RegIx) (b : Byte) : State := { s with v := s.v.set x.val b }

/-- `V[x] <- result`, then `V[15] <- flag`, in that order (R22, R143). -/
def State.setFlagged (s : State) (x : RegIx) (result : Byte) (flag : Bool) : State :=
  (s.setV x result).setV 15 (flagByte flag)

/-- `V[k] <- bytes[k]` for every `k` below the length of `bytes`; the other registers keep their values (R165). -/
def State.loadV (s : State) (bytes : List Byte) : State :=
  { s with v := Vector.ofFn fun k : Fin 16 => bytes.getD k.val s.v[k.val] }

/-- `V[0] .. V[x]`, both included, in ascending order (R164). -/
def State.firstV (s : State) (x : RegIx) : List Byte := s.v.toList.take (x.val + 1)

/-- `I <- a`. -/
def State.setI (s : State) (a : Word) : State := { s with i := a }

/-- `PC <- a`. -/
def State.setPc (s : State) (a : Word) : State := { s with pc := a }

/-- `DT <- b`. -/
def State.setDt (s : State) (b : Byte) : State := { s with dt := b }

/-- `ST <- b`. -/
def State.setSt (s : State) (b : Byte) : State := { s with st := b }

/-! ### The call stack (R26) -/

/-- `push(v)`: overflow at depth 16, the stack then unchanged; else the entry is written and the depth grows. -/
def State.push (s : State) (a : Word) : Except Fault State :=
  if h : s.sp.val < 16 then
    .ok { s with stack := s.stack.set s.sp.val a, sp := ⟨s.sp.val + 1, by omega⟩ }
  else .error .stackOverflow

/-- `pop()`: underflow at depth 0; else the depth shrinks and the old top is the result, left in place. -/
def State.pop (s : State) : Except Fault (Word × State) :=
  if h : 0 < s.sp.val then
    .ok (s.stack[s.sp.val - 1], { s with sp := ⟨s.sp.val - 1, by omega⟩ })
  else .error .stackUnderflow

/-! ### Memory (R8, R29, R50 to R57) -/

/-- What a cell holds that no write has changed: the reset contents, `FONT` from 0x000 and 0x00 above it (R32, R52). -/
def Memory.unlisted (a : Nat) : Byte := Config.fontBytes.getD a 0x00#8

/-- The byte at `a`. -/
def Memory.read : Memory → Nat → Byte
  | [], a => Memory.unlisted a
  | (k, b) :: m, a => if a = k then b else Memory.read m a

/-- The list without the cells at `a`. -/
def Memory.erase : Memory → Nat → Memory
  | [], _ => []
  | (k, b) :: m, a => if a = k then Memory.erase m a else (k, b) :: Memory.erase m a

/-- The list with a cell put before the first one of a higher address. -/
def Memory.insert : Memory → Nat → Byte → Memory
  | [], a, b => [(a, b)]
  | (k, c) :: m, a, b => if a < k then (a, b) :: (k, c) :: m else (k, c) :: Memory.insert m a b

/-- Storing a byte. Storing what an unlisted cell reads as removes the cell, so equal memories are equal lists. -/
def Memory.write (m : Memory) (a : Nat) (b : Byte) : Memory :=
  if b = Memory.unlisted a then m.erase a else (m.erase a).insert a b

/-- The canonical form from a lower bound on: addresses rise, stay below 4096, and no cell is redundant. -/
def Memory.wfFrom : Nat → Memory → Bool
  | _, [] => true
  | lo, (k, b) :: m => decide (lo ≤ k) && decide (k < Config.memSize) && b != Memory.unlisted k && Memory.wfFrom (k + 1) m

/-- The canonical form. -/
def Memory.wf (m : Memory) : Bool := Memory.wfFrom 0 m

/-- `MemRead(addr, 1)` (R8): an address above 0xFFF raises (R56). -/
def State.readByte (s : State) (a : Nat) : Except Fault Byte :=
  if a ≤ 0xFFF then .ok (s.mem.read a) else .error (.outOfBoundsAccess a)

/-- `MemWrite(addr, 1, b)` (R8): an address above 0xFFF raises and nothing is written (R56). No address is
write-protected (R58). -/
def State.writeByte (s : State) (a : Nat) (b : Byte) : Except Fault State :=
  if a ≤ 0xFFF then .ok { s with mem := s.mem.write a b } else .error (.outOfBoundsAccess a)

/-- `MemRead(addr, 2)`, used by the fetch only (R8, R53): the byte at `addr` first, and on top. -/
def State.readWord (s : State) (a : Nat) : Except Fault Word :=
  match s.readByte a with
  | .error f => .error f
  | .ok hi =>
    match s.readByte (a + 1) with
    | .error f => .error f
    | .ok lo => .ok (wordOfBytes hi lo)

/-- `n` bytes from `a` on, in ascending order; the first address out of range raises (R57, R167). -/
def State.readBytes (s : State) : Nat → Nat → Except Fault (List Byte)
  | _, 0 => .ok []
  | a, n + 1 =>
    match s.readByte a with
    | .error f => .error f
    | .ok b =>
      match State.readBytes s (a + 1) n with
      | .error f => .error f
      | .ok bs => .ok (b :: bs)

/-- The bytes stored from `a` on, in ascending order; the first address out of range raises (R57, R167). -/
def State.writeBytes : State → Nat → List Byte → Except Fault State
  | s, _, [] => .ok s
  | s, a, b :: bs =>
    match s.writeByte a b with
    | .error f => .error f
    | .ok t => State.writeBytes t (a + 1) bs

/-! ### The framebuffer engine (R180, R181) -/

/-- The cell in row `y`, column `x`. -/
def Framebuffer.lit (fb : Framebuffer) (y : Fin 32) (x : Fin 64) : Bool := fb[y.val].getLsbD x.val

/-- The cell in row `y`, column `x` exclusive-or 1. -/
def Framebuffer.flip (fb : Framebuffer) (y : Fin 32) (x : Fin 64) : Framebuffer :=
  fb.set y.val (fb[y.val] ^^^ BitVec.twoPow 64 x.val)

/-- A row number, wrapped (R181). -/
def wrapRow (y : Nat) : Fin 32 := Fin.ofNat 32 y

/-- A column number, wrapped (R181). -/
def wrapCol (x : Nat) : Fin 64 := Fin.ofNat 64 x

/-- The loop of `DrawRow` (R181) over the pixel positions `js` of a row, from a grid and a collision so far. -/
def drawPixels (y0 : Fin 32) (x0 : Nat) (bits : Byte) : List Nat → Framebuffer × Bool → Framebuffer × Bool
  | [], r => r
  | j :: js, (fb, coll) =>
    if bits.getLsbD (7 - j) then
      drawPixels y0 x0 bits js (fb.flip y0 (wrapCol (x0 + j)), coll || fb.lit y0 (wrapCol (x0 + j)))
    else drawPixels y0 x0 bits js (fb, coll)

/-- `DrawRow(x, y, bits)` (R181): both coordinates wrap first, each column wraps on its own. -/
def drawRow (fb : Framebuffer) (x y : Nat) (bits : Byte) : Framebuffer × Bool :=
  drawPixels (wrapRow y) (x % 64) bits [0, 1, 2, 3, 4, 5, 6, 7] (fb, false)

/-- The rows of draw-sprite (R183): `n` rows left, the next one numbered `row`, its byte at `I + row`. -/
def State.drawRows (s : State) (x y : Nat) : Nat → Nat → Framebuffer × Bool → Except Fault (Framebuffer × Bool)
  | 0, _, r => .ok r
  | n + 1, row, r =>
    match s.readByte (s.i.toNat + row) with
    | .error f => .error f
    | .ok b =>
      State.drawRows s x y n (row + 1) ((drawRow r.1 x (y + row) b).1, r.2 || (drawRow r.1 x (y + row) b).2)

/-! ### The timer decrementer (R233) -/

/-- One decrement, saturating at zero. -/
def tickByte (t : Byte) : Byte := if t ≠ 0x00#8 then t - 0x01#8 else t

/-- The `tick` event: both timers, independently, and nothing else. -/
def State.tick (s : State) : State := { s with dt := tickByte s.dt, st := tickByte s.st }

/-- A timer after `n` ticks: `max(t - n, 0)` (R202). -/
def afterTicks (t : Byte) (n : Nat) : Byte := if t = 0x00#8 then 0x00#8 else BitVec.ofNat 8 (t.toNat - n)

/-- `n` tick events in a row, in one expression. -/
def State.ticks (s : State) (n : Nat) : State := { s with dt := afterTicks s.dt n, st := afterTicks s.st n }

/-! ### The environment's inputs (R10, R236, R238, R272) -/

/-- What the environment presents to the next step: the scripted input if one is placed, else the free one. -/
def State.input (s : State) : Config.Input :=
  match s.script with
  | [] => Config.input s.draw
  | c :: _ => c

/-- A fresh input for the next step (R238: an independent value for each use). -/
def State.nextInput (s : State) : State := { s with script := s.script.tail, draw := s.draw + 1 }

/-! ### The outputs (R235, R237) -/

/-- The tone signal. -/
def State.tone (s : State) : Bool := s.st != 0x00#8

/-- The display read-out: the cell in row `y`, column `x`. -/
def State.display (s : State) (y : Fin 32) (x : Fin 64) : Bool := Framebuffer.lit s.fb y x

/-! ### Loading and reset (R59, R260) -/

/-- Bytes placed from `a` on. -/
def Memory.place : Memory → Nat → List Byte → Memory
  | m, _, [] => m
  | m, a, b :: bs => Memory.place (m.write a b) (a + 1) bs

/-- The state after `reset(image)` on a machine instance with the parameters `p` (R260, R32): zeros, then the 80
font bytes at 0x000, then the image at 0x200. -/
def State.resetWith (p : Config.Params) (image : List Byte) : State :=
  { State.reset with
    mem := Memory.place (Memory.place [] 0x000 p.font.toList) Config.progBase image
    params := p }

/-- Stores a word in memory order at an address (the host's placing of an instruction). -/
def Memory.placeWord (m : Memory) (a : Nat) (w : Word) : Memory := Memory.place m a [highByte w, lowByte w]

end Sys2Proof.Machine
end

