-- ==== Sys2Proof/Machine/Operands.lean ====
section
/-! DEFINITION. The operand forms: zero-extended immediates (spec 30_encoding.md R83), the one data address
`I + k` (42_index_memory.md R166), the registers selected by a quirk parameter, the skip, the key query and the
choice of a pressed key. -/

namespace Sys2Proof.Machine

/-- `zext_16(NNN)` (R83). -/
def addrWord (nnn : Addr12) : Word := nnn.setWidth 16

/-- `zext_16(v)` of a byte (R83). -/
def byteWord (b : Byte) : Word := b.setWidth 16

/-- The base of every data access, `I` as a natural number: no sum formed from it wraps (R57, R166). -/
def State.base (s : State) : Nat := s.i.toNat

/-- The register a shift reads (R138, R140): `V[X]`, or `V[Y]` when `Q_SHIFT_SRC = VY`. -/
def shiftSource (p : Config.Params) (x y : RegIx) : RegIx :=
  match p.shiftSrc with
  | .vx => x
  | .vy => y

/-- The offset register of jump-with-offset (R117): `V[0]`, or the one named by the top nibble of `NNN`. -/
def offsetReg (p : Config.Params) (nnn : Addr12) : RegIx :=
  match p.jumpReg with
  | .v0 => 0
  | .vx => (nnn.extractLsb' 8 4).toFin

/-- `I` after register-dump and register-load (R164, R165): unchanged, or `trunc_16(I + X + 1)` when `Q_MEM_INC`. -/
def State.advanceI (s : State) (x : RegIx) : State :=
  if s.params.memInc then s.setI (s.i + BitVec.ofNat 16 (x.val + 1)) else s

/-- A skip (R118): over one slot of two bytes if the condition holds; the skipped bytes are not looked at. -/
def State.skipIf (s : State) (c : Bool) : State := s.setPc (if c then s.pc + 2#16 else s.pc)

/-- `KeyPressed(k)` (R10, R236). -/
def keyPressed (keys : BitVec 16) (k : Fin 16) : Bool := keys.getLsbD k.val

/-- `KeyQuery(v)` (R206): a key number above 15 answers a free boolean. -/
def keyQuery (inp : Config.Input) (v : Byte) : Bool :=
  if v.toNat ≤ 15 then inp.keys.getLsbD v.toNat else inp.farKey

/-- The first pressed key at or after `start`, counting round, among the next `n` keys. -/
def searchKey (keys : BitVec 16) : Nat → Fin 16 → Option (Fin 16)
  | 0, _ => none
  | n + 1, start => if keyPressed keys start then some start else searchKey keys n (start + 1)

/-- A pressed key, if there is one (R203): the search begins at the free `pick`, so any pressed key can be it. -/
def chooseKey (inp : Config.Input) : Option (Fin 16) := searchKey inp.keys 16 inp.pick

/-- The decimal digits of store-BCD, hundreds first, one to a byte (R163). -/
def bcdDigits (b : Byte) : List Byte :=
  [BitVec.ofNat 8 (b.toNat / 100), BitVec.ofNat 8 (b.toNat / 10 % 10), BitVec.ofNat 8 (b.toNat % 10)]

end Sys2Proof.Machine
end

