-- ==== Sys2Proof/Machine/Alu.lean ====
section
/-! DEFINITION. Register, arithmetic, logic, shift and random instructions (spec 41_alu.md R130 to R143).
BitVec arithmetic is modulo 256 (R142); a flag is computed from the old operands and written last (R143). -/

namespace Sys2Proof.Machine

/-- load-immediate (R130). -/
def execLdImm (x : RegIx) (nn : Byte) (s : State) : Host.Outcome State Fault Refusal :=
  .next (s.setV x nn)

/-- add-immediate (R131): no flag. -/
def execAddImm (x : RegIx) (nn : Byte) (s : State) : Host.Outcome State Fault Refusal :=
  .next (s.setV x (s.getV x + nn))

/-- register move (R132). -/
def execLdReg (x y : RegIx) (s : State) : Host.Outcome State Fault Refusal :=
  .next (s.setV x (s.getV y))

/-- OR (R133): `V[15]` is not touched as a flag (decision D28). -/
def execOrReg (x y : RegIx) (s : State) : Host.Outcome State Fault Refusal :=
  .next (s.setV x (s.getV x ||| s.getV y))

/-- AND (R134). -/
def execAndReg (x y : RegIx) (s : State) : Host.Outcome State Fault Refusal :=
  .next (s.setV x (s.getV x &&& s.getV y))

/-- XOR (R135). -/
def execXorReg (x y : RegIx) (s : State) : Host.Outcome State Fault Refusal :=
  .next (s.setV x (s.getV x ^^^ s.getV y))

/-- add-registers (R136): flag = carry. -/
def execAddReg (x y : RegIx) (s : State) : Host.Outcome State Fault Refusal :=
  .next (s.setFlagged x (s.getV x + s.getV y) (carry (s.getV x) (s.getV y)))

/-- subtract `VX - VY` (R137): flag = no borrow. -/
def execSubReg (x y : RegIx) (s : State) : Host.Outcome State Fault Refusal :=
  .next (s.setFlagged x (s.getV x - s.getV y) (noBorrow (s.getV x) (s.getV y)))

/-- shift-right (R138): flag = the bit shifted out; the source register is a quirk. -/
def execShr (x y : RegIx) (s : State) : Host.Outcome State Fault Refusal :=
  .next (s.setFlagged x (s.getV (shiftSource s.params x y) >>> 1) (lostRight (s.getV (shiftSource s.params x y))))

/-- subtract-reverse `VY - VX` (R139): flag = no borrow. -/
def execSubnReg (x y : RegIx) (s : State) : Host.Outcome State Fault Refusal :=
  .next (s.setFlagged x (s.getV y - s.getV x) (noBorrow (s.getV y) (s.getV x)))

/-- shift-left (R140): flag = the bit shifted out; the source register is a quirk. -/
def execShl (x y : RegIx) (s : State) : Host.Outcome State Fault Refusal :=
  .next (s.setFlagged x (s.getV (shiftSource s.params x y) <<< 1) (lostLeft (s.getV (shiftSource s.params x y))))

/-- random (R141): the environment's byte, masked. -/
def execRnd (x : RegIx) (nn : Byte) (s : State) : Host.Outcome State Fault Refusal :=
  .next (s.setV x (s.input.rnd &&& nn))

end Sys2Proof.Machine
end

