-- ==== Sys2Proof/Machine/Display.lean ====
section
/-! DEFINITION. The display instructions (spec 43_display.md R182, R183). -/

namespace Sys2Proof.Machine

/-- clear-screen (R182): every cell unlit; `V[15]` is not written. -/
def execCls (s : State) : Host.Outcome State Fault Refusal :=
  .next { s with fb := Vector.replicate 32 0#64 }

/-- draw-sprite (R183): the coordinates are read once, before `V[15]` is written; `n` rows from `I` on; the
collision flag is written last, and also when `n = 0` (decision D27, 90_conflicts.md C1 and C6). -/
def execDrw (x y : RegIx) (n : Nibble) (s : State) : Host.Outcome State Fault Refusal :=
  match s.drawRows (s.getV x).toNat (s.getV y).toNat n.toNat 0 (s.fb, false) with
  | .ok (fb, coll) => .next ({ s with fb := fb }.setV 15 (flagByte coll))
  | .error f => raise f

end Sys2Proof.Machine
end

