-- ==== Sys2Proof/Machine/Flow.lean ====
section
/-! DEFINITION. Control transfer (spec 40_flow.md R110 to R119). In every meaning `pc` already holds the
post-fetch value `a + 2` (30_encoding.md R84). -/

namespace Sys2Proof.Machine

/-- return (R110): `PC <- pop()`. -/
def execRet (s : State) : Host.Outcome State Fault Refusal :=
  match s.pop with
  | .ok (a, t) => .next (t.setPc a)
  | .error f => raise f

/-- jump NNN (R111). -/
def execJp (nnn : Addr12) (s : State) : Host.Outcome State Fault Refusal :=
  .next (s.setPc (addrWord nnn))

/-- call NNN (R112): the post-fetch `PC` is pushed, then `PC <- NNN`. -/
def execCall (nnn : Addr12) (s : State) : Host.Outcome State Fault Refusal :=
  match s.push s.pc with
  | .ok t => .next (t.setPc (addrWord nnn))
  | .error f => raise f

/-- skip-if-equal-immediate (R113). -/
def execSeImm (x : RegIx) (nn : Byte) (s : State) : Host.Outcome State Fault Refusal :=
  .next (s.skipIf (s.getV x == nn))

/-- skip-if-not-equal-immediate (R114). -/
def execSneImm (x : RegIx) (nn : Byte) (s : State) : Host.Outcome State Fault Refusal :=
  .next (s.skipIf (s.getV x != nn))

/-- skip-if-registers-equal (R115); the low nibble `n` is ignored (R90). -/
def execSeReg (x y : RegIx) (_n : Nibble) (s : State) : Host.Outcome State Fault Refusal :=
  .next (s.skipIf (s.getV x == s.getV y))

/-- skip-if-registers-not-equal (R116); the low nibble `n` is ignored (R90). -/
def execSneReg (x y : RegIx) (_n : Nibble) (s : State) : Host.Outcome State Fault Refusal :=
  .next (s.skipIf (s.getV x != s.getV y))

/-- jump-with-offset (R117): `PC <- NNN + V[0]`, not masked to 12 bits; the offset register is a quirk. -/
def execJpV0 (nnn : Addr12) (s : State) : Host.Outcome State Fault Refusal :=
  .next (s.setPc (addrWord nnn + byteWord (s.getV (offsetReg s.params nnn))))

end Sys2Proof.Machine
end

