-- ==== Sys2Proof/Machine/Index.lean ====
section
/-! DEFINITION. Address register and memory transfer (spec 42_index_memory.md R160 to R167). -/

namespace Sys2Proof.Machine

/-- set-address-register (R160). -/
def execLdI (nnn : Addr12) (s : State) : Host.Outcome State Fault Refusal :=
  .next (s.setI (addrWord nnn))

/-- add-to-address-register (R161): `I` wraps modulo 2^16 (decision D10), the flag tests the new `I`, written last. -/
def execAddIVx (x : RegIx) (s : State) : Host.Outcome State Fault Refusal :=
  .next ((s.setI (s.i + byteWord (s.getV x))).setV 15 (flagByte (outOfRange (s.i + byteWord (s.getV x)))))

/-- load-font-address (R162): `I <- VX * 5`, not masked (decision D25). -/
def execLdFVx (x : RegIx) (s : State) : Host.Outcome State Fault Refusal :=
  .next (s.setI (byteWord (s.getV x) * BitVec.ofNat 16 Config.glyphBytes))

/-- store-BCD (R163). -/
def execLdBVx (x : RegIx) (s : State) : Host.Outcome State Fault Refusal :=
  match s.writeBytes s.base (bcdDigits (s.getV x)) with
  | .ok t => .next t
  | .error f => raise f

/-- register-dump (R164): `V[0]` to `V[X]` to memory from `I` on; `I` advances only when `Q_MEM_INC`. -/
def execLdMemVx (x : RegIx) (s : State) : Host.Outcome State Fault Refusal :=
  match s.writeBytes s.base (s.firstV x) with
  | .ok t => .next (t.advanceI x)
  | .error f => raise f

/-- register-load (R165): `V[0]` to `V[X]` from memory at `I` on; `I` advances only when `Q_MEM_INC`. -/
def execLdVxMem (x : RegIx) (s : State) : Host.Outcome State Fault Refusal :=
  match s.readBytes s.base (x.val + 1) with
  | .ok bs => .next ((s.loadV bs).advanceI x)
  | .error f => raise f

end Sys2Proof.Machine
end

