-- ==== Sys2Proof/Machine/Keys.lean ====
section
/-! DEFINITION. The key and timer instructions (spec 44_input_timers.md R200 to R207). -/

namespace Sys2Proof.Machine

/-- skip-if-key-pressed (R200). -/
def execSkp (x : RegIx) (s : State) : Host.Outcome State Fault Refusal :=
  .next (s.skipIf (keyQuery s.input (s.getV x)))

/-- skip-if-key-not-pressed (R201). -/
def execSknp (x : RegIx) (s : State) : Host.Outcome State Fault Refusal :=
  .next (s.skipIf (!keyQuery s.input (s.getV x)))

/-- load-delay-timer (R202). -/
def execLdVxDt (x : RegIx) (s : State) : Host.Outcome State Fault Refusal :=
  .next (s.setV x s.dt)

/-- What wait-for-key leaves (R203): with no key pressed `PC` is rewound by 2; else `V[X]` gets a pressed key. -/
def State.waitKey (s : State) (x : RegIx) : Option (Fin 16) → State
  | none => s.setPc (s.pc - 2#16)
  | some k => s.setV x (BitVec.ofNat 8 k.val)

/-- wait-for-key (R203): a poll, never a blocked state (R267). -/
def execLdVxK (x : RegIx) (s : State) : Host.Outcome State Fault Refusal :=
  .next (s.waitKey x (chooseKey s.input))

/-- set-delay-timer (R204). -/
def execLdDtVx (x : RegIx) (s : State) : Host.Outcome State Fault Refusal :=
  .next (s.setDt (s.getV x))

/-- set-sound-timer (R205). -/
def execLdStVx (x : RegIx) (s : State) : Host.Outcome State Fault Refusal :=
  .next (s.setSt (s.getV x))

end Sys2Proof.Machine
end

