-- ==== Sys2Proof/Machine/Cycle.lean ====
section
/-! DEFINITION. The step cycle (spec 30_encoding.md R84), its result (00_scope.md R9), and the three events of the
machine (R2): `step`, `tick`, `reset(image)`, with what the environment chooses (70_reset_and_hazards.md R272). -/

namespace Sys2Proof.Machine

/-- The instruction fetch: two byte reads at `PC` and `PC + 1` (R84, R53, R57). -/
def State.fetch (s : State) : Except Fault Word := s.readWord s.pc.toNat

/-- `decode` and `execute` of a fetched word, `pc` already advanced; an unrecognized word is reported and does
nothing else (R84, R91). -/
def State.execute (s : State) (ins : Word) : Host.Outcome State Fault Refusal :=
  match decode ins with
  | .ok i => exec i s
  | .error _ => .next (s.report ins)

/-- One `step` event (R84): fetch, advance `PC` by 2, decode, execute. A fetch that raises changes nothing. -/
def State.cycle (s : State) : Host.Outcome State Fault Refusal :=
  match s.fetch with
  | .ok ins => (s.setPc (s.pc + 2#16)).execute ins
  | .error f => raise f

/-- An outcome with its next state changed further; a stop stays a stop. -/
def thenDo (o : Host.Outcome State Fault Refusal) (g : State → State) : Host.Outcome State Fault Refusal :=
  match o with
  | .next s => .next (g s)
  | .fault f => .fault f
  | .refused r => .refused r

/-- What the environment does after a step and before the next: the ticks of this step's input, then a fresh
input (R234, R238, R272). -/
def State.between (s : State) : State := (s.ticks s.input.ticks).nextInput

/-- The host's step: one `step` event, then the ticks up to the next one. -/
def State.run1 (s : State) : Host.Outcome State Fault Refusal := thenDo s.cycle State.between

/-! ### The step result (R9, R228) -/

/-- What a step hands back to the driver. -/
inductive StepResult where
  | ok
  | unrecognized (ins : Word)
  | fault (f : Fault)
deriving DecidableEq, Repr

/-- The result of executing a decoded instruction: a fault, or `Ok`. -/
def execResult (o : Host.Outcome State Fault Refusal) : StepResult :=
  match o with
  | .next _ => .ok
  | .fault f => .fault f
  | .refused _ => .ok

/-- The result of the `step` event at a state: the first condition met, in the order fetch, decode, execute (R227). -/
def State.result (s : State) : StepResult :=
  match s.fetch with
  | .error f => .fault f
  | .ok ins =>
    match decode ins with
    | .error _ => .unrecognized ins
    | .ok i => execResult (exec i (s.setPc (s.pc + 2#16)))

/-! ### The events (R2) -/

/-- The three things that change the machine's state. -/
inductive Event where
  | step
  | tick
  | reset (image : List Byte)
deriving DecidableEq, Repr

/-- One event. `reset` refuses an image that does not fit (R59, decision D20); it leaves the machine instance's
parameters and the environment's own fields as they are. -/
def State.apply (s : State) : Event → Host.Outcome State Fault Refusal
  | .step => thenDo s.cycle State.nextInput
  | .tick => .next s.tick
  | .reset image =>
    if image.length ≤ Config.maxImage then
      .next { State.resetWith s.params image with script := s.script, draw := s.draw }
    else .refused (.imageTooLong image.length)

/-- A sequence of events, stopping at the first fault or refusal (R230, R272). -/
def State.runEvents : List Event → State → Host.Outcome State Fault Refusal
  | [], s => .next s
  | e :: es, s =>
    match s.apply e with
    | .next t => State.runEvents es t
    | .fault f => .fault f
    | .refused r => .refused r

/-- Places a table word where the next fetch reads it, if there is room for it. -/
def State.placeWord (s : State) (w : Word) : State :=
  if s.pc.toNat ≤ 0xFFE then { s with mem := s.mem.placeWord s.pc.toNat w } else s

end Sys2Proof.Machine
end

