-- ==== Sys2Proof/Machine/Step.lean ====
section
/-! DEFINITION. The host's step and its placing of an instruction. -/

namespace Sys2Proof.Machine

/-- One instruction and what the environment does before the next one. -/
def step (s : State) : Host.Outcome State Fault Refusal := s.run1

/-- The state with the instruction of a table word stored where `step` fetches next. -/
def State.withFetchWord (s : State) (nbits w : Nat) : State := s.placeWord (tableWord nbits w)

end Sys2Proof.Machine
end

