-- ==== Sys2Proof/Safety.lean ====
section
/-! DEFINITION. The terms the statements use: the invariant of every reachable state, the limits under which an
instruction completes (spec 70_reset_and_hazards.md R268), which instruction may write what, and the shapes of a
change of state. -/

namespace Sys2Proof

open Machine

/-! ### The invariant -/

/-- What every step keeps: memory canonical, `PC` at most 0x10FE (R25), every entry in use a post-fetch `PC`, so
from 0x0002 to 0x1000 (R25, R110). -/
def Inv (s : State) : Prop :=
  s.mem.wf = true ∧ s.pc.toNat ≤ 0x10FE ∧
    ∀ j : Fin 16, j.val < s.sp.val → 2 ≤ s.stack[j.val].toNat ∧ s.stack[j.val].toNat ≤ 0x1000

/-! ### Limits (R268) -/

/-- How many data bytes an instruction accesses (R55): N for draw-sprite, 3 for store-BCD, X+1 for the transfers. -/
def Instr.dataBytes : Instr → Nat
  | .drw _ _ n => n.toNat
  | .ldBVx _ => 3
  | .ldMemVx x => x.val + 1
  | .ldVxMem x => x.val + 1
  | _ => 0

/-- The conditions under which an instruction completes (R268): room on the stack for a call, an entry for a
return, and every data byte at an address up to 0xFFF. -/
def Instr.fits (i : Instr) (s : State) : Prop :=
  ((∃ nnn, i = .call nnn) → s.sp.val < 16) ∧ (i = .ret → 0 < s.sp.val) ∧
    (i.dataBytes = 0 ∨ s.i.toNat + i.dataBytes ≤ 0x1000)

/-! ### Which instruction writes what -/

/-- The seven that write `V[15]` as a flag (R22). -/
def Instr.setsFlag : Instr → Bool
  | .addReg _ _ => true
  | .subReg _ _ => true
  | .shr _ _ => true
  | .subnReg _ _ => true
  | .shl _ _ => true
  | .drw _ _ _ => true
  | .addIVx _ => true
  | _ => false

/-- Whether register `r` is an ordinary destination of the instruction (files 41, 42, 44: X, or 0 to X for
register-load). -/
def Instr.names (i : Instr) (r : RegIx) : Bool :=
  match i with
  | .ldImm x _ => r == x
  | .addImm x _ => r == x
  | .ldReg x _ => r == x
  | .orReg x _ => r == x
  | .andReg x _ => r == x
  | .xorReg x _ => r == x
  | .addReg x _ => r == x
  | .subReg x _ => r == x
  | .shr x _ => r == x
  | .subnReg x _ => r == x
  | .shl x _ => r == x
  | .rnd x _ => r == x
  | .ldVxDt x => r == x
  | .ldVxK x => r == x
  | .ldVxMem x => decide (r.val ≤ x.val)
  | _ => false

/-- The instructions whose step may end elsewhere than at `a + 2` (R25). -/
def Instr.movesPc : Instr → Bool
  | .ret => true
  | .jp _ => true
  | .call _ => true
  | .seImm _ _ => true
  | .sneImm _ _ => true
  | .seReg _ _ _ => true
  | .sneReg _ _ _ => true
  | .jpV0 _ => true
  | .skp _ => true
  | .sknp _ => true
  | .ldVxK _ => true
  | _ => false

/-- The instructions that sample what the environment presents (R10, R240). -/
def Instr.samples : Instr → Bool
  | .rnd _ _ => true
  | .skp _ => true
  | .sknp _ => true
  | .ldVxK _ => true
  | _ => false

/-- The five instructions whose meaning depends on a quirk parameter (R93). -/
def Instr.quirky : Instr → Bool
  | .shr _ _ => true
  | .shl _ _ => true
  | .ldMemVx _ => true
  | .ldVxMem _ => true
  | .jpV0 _ => true
  | _ => false

/-- The answer to a key query for the key number `v` (R206): the key's state, or a free boolean above 15. -/
def keyAnswer (s : State) (v : Byte) : Bool :=
  if v.toNat ≤ 15 then s.input.keys.getLsbD v.toNat else s.input.farKey

/-- The condition of the six skips (R113 to R116, R200, R201); `none` for every other instruction. -/
def Instr.skipCondition (i : Instr) (s : State) : Option Bool :=
  match i with
  | .seImm x nn => some (decide (s.getV x = nn))
  | .sneImm x nn => some (decide (s.getV x ≠ nn))
  | .seReg x y _ => some (decide (s.getV x = s.getV y))
  | .sneReg x y _ => some (decide (s.getV x ≠ s.getV y))
  | .skp x => some (keyAnswer s (s.getV x))
  | .sknp x => some (!keyAnswer s (s.getV x))
  | _ => none

/-! ### Shapes of a change of state -/

/-- The fetch of the next step is in range and reads the word `w` (R53, R84). -/
def StandsAtPc (s : State) (w : Word) : Prop :=
  s.pc.toNat ≤ 0xFFE ∧ wordOfBytes (s.mem.read s.pc.toNat) (s.mem.read (s.pc.toNat + 1)) = w

/-- From `s` to `t` register `x` becomes `b` and nothing else changes, in any field. -/
def SetsRegister (x : RegIx) (b : Byte) (s t : State) : Prop :=
  t.getV x = b ∧ (∀ r, r ≠ x → t.getV r = s.getV r) ∧ t = { s with v := t.v }

/-- From `s` to `t` register `x` becomes `b` unless it is register 15, register 15 becomes the flag, and nothing
else changes, in any field (R22, R143). -/
def SetsFlagged (x : RegIx) (b : Nat) (flag : Nat) (s t : State) : Prop :=
  (t.getV 15).toNat = flag ∧ (x ≠ 15 → (t.getV x).toNat = b) ∧ (∀ r, r ≠ x → r ≠ 15 → t.getV r = s.getV r) ∧
    t = { s with v := t.v }

/-- Every byte of memory outside the `n` bytes from `a` on reads after as it read before. -/
def KeepsMemoryOutside (a n : Nat) (s t : State) : Prop :=
  ∀ c, ¬ (a ≤ c ∧ c < a + n) → t.mem.read c = s.mem.read c

/-- Whether the sprite drawn from state `s` with its corner at column `x`, row `y` and `n` rows has a 1 bit on the
cell in row `r`, column `c`: bit `7 - j` of the byte at `I + k` is column `x + j`, row `y + k`, both wrapped (R181, R183). -/
def SpriteCovers (s : State) (x y n : Nat) (r : Fin 32) (c : Fin 64) : Prop :=
  ∃ k j, k < n ∧ j < 8 ∧ (s.mem.read (s.i.toNat + k)).getLsbD (7 - j) = true ∧
    r.val = (y + k) % 32 ∧ c.val = (x + j) % 64

/-- A run is clean if no step of it reported an unrecognized word (R231). -/
def Clean (s : State) : Prop := s.reports = []

end Sys2Proof
end

