-- ==== Sys2Proof/Certificates/Slice0/Obligations.lean ====
section
/-! DEFINITION. The statements about the model, each a rule of the spec or rested on its sections. `exec` takes the
state with `pc` already advanced (30_encoding.md R84); `State.cycle` is one `step` event, `step` the host's step. -/

open Sys2Proof Sys2Proof.Machine

/-- For every instruction of all 34 constructors, with every operand at every value, decode of its word is the
instruction, and decoding its two bytes followed by any bytes gives the instruction and those bytes. The bit
patterns are the spec's, marked there as general knowledge (log entry 1). -/
def Obligations.DecodeUndoesEncode : Prop :=
  ∀ (i : Instr) (rest : List Byte),
    decode (encode i) = .ok i ∧ decodeBytes (encodeBytes i ++ rest) = .ok (i, rest)

/-- For every 16-bit word that decodes to an instruction, encoding that instruction gives the word: decoding drops no
bit, the ignored ones included. The bit patterns are the spec's, marked there as general knowledge (log entry 1). -/
def Obligations.EncodeUndoesDecode : Prop :=
  ∀ (w : Word) (i : Instr), decode w = .ok i → encode i = w

/-- A word is rejected if and only if its class is 0x0 and it is neither 00E0 nor 00EE, or its class is 0x8 and N is 8
to D or F, or its class is 0xE and NN is neither 9E nor A1, or its class is 0xF and NN is none of the nine values.
The values are the spec's, marked there as general knowledge or decisions (log entries 1 and 7). -/
def Obligations.UnrecognizedWordsAreTheFourSets : Prop :=
  ∀ w : Word, (∃ r, decode w = .error r) ↔
    (fieldOp w = 0x0#4 ∧ w ≠ 0x00E0#16 ∧ w ≠ 0x00EE#16) ∨
    (fieldOp w = 0x8#4 ∧ (fieldN w).toNat ∈ [0x8, 0x9, 0xA, 0xB, 0xC, 0xD, 0xF]) ∨
    (fieldOp w = 0xE#4 ∧ (fieldNN w).toNat ∉ [0x9E, 0xA1]) ∨
    (fieldOp w = 0xF#4 ∧ (fieldNN w).toNat ∉ [0x07, 0x0A, 0x15, 0x18, 0x1E, 0x29, 0x33, 0x55, 0x65])

/-- A word that decodes to an instruction, masked with that instruction's row of the opcode table, is the row's pattern.
Conversely a word that matches a row decodes to an instruction of that row. The patterns are the spec's, marked
there as general knowledge (log entry 1). -/
def Obligations.DecodeFollowsTheOpcodeTable : Prop :=
  (∀ (w : Word) (i : Instr), decode w = .ok i → w &&& i.row.1 = i.row.2) ∧
  (∀ (w : Word) (i : Instr), w &&& i.row.1 = i.row.2 → ∃ j, decode w = .ok j ∧ j.row = i.row)

/-- Sixteen words written out from the spec's tables, at least one of every family, decode to the instructions they
stand for, and 0x0000 is rejected. The patterns are the spec's, marked there as general knowledge (log entry 1), and
0x5121 decodes by its decision D4 (log entry 7). -/
def Obligations.WrittenOutWordsDecode : Prop :=
  decode 0x00E0#16 = .ok .cls ∧ decode 0x00EE#16 = .ok .ret ∧ decode 0x1234#16 = .ok (.jp 0x234#12) ∧
  decode 0x2300#16 = .ok (.call 0x300#12) ∧ decode 0x5121#16 = .ok (.seReg 1 2 0x1#4) ∧
  decode 0x6FAB#16 = .ok (.ldImm 15 0xAB#8) ∧ decode 0x8014#16 = .ok (.addReg 0 1) ∧
  decode 0x8376#16 = .ok (.shr 3 7) ∧ decode 0xA300#16 = .ok (.ldI 0x300#12) ∧
  decode 0xBFFF#16 = .ok (.jpV0 0xFFF#12) ∧ decode 0xC10F#16 = .ok (.rnd 1 0x0F#8) ∧
  decode 0xD125#16 = .ok (.drw 1 2 0x5#4) ∧ decode 0xE0A1#16 = .ok (.sknp 0) ∧
  decode 0xF30A#16 = .ok (.ldVxK 3) ∧ decode 0xF355#16 = .ok (.ldMemVx 3) ∧ decode 0xF265#16 = .ok (.ldVxMem 2) ∧
  decode 0x0000#16 = .error (.class0 0x0000#16)

/-- When the word at PC decodes to an instruction (well-formed or not), step is exec of that instruction on the state
with PC advanced by 2, and then, if that gives a next state, State.between: both timers run down by the input's
number of ticks, the script moves on by one and the draw counter by one. Script, draw and the ticks after a step are
the model's own way of showing the environment (log entry 6). -/
def Obligations.StepRunsTheDecodedInstruction : Prop :=
  (∀ (s : State) (w : Word) (i : Instr), StandsAtPc s w → decode w = .ok i →
    step s = thenDo (exec i (s.setPc (s.pc + 2#16))) State.between) ∧
  (∀ t : State, t.between = { t with
    dt := afterTicks t.dt t.input.ticks, st := afterTicks t.st t.input.ticks,
    script := t.script.tail, draw := t.draw + 1 })

/-- A step returns Unrecognized(w) exactly if the fetch is in range, reads w, and w decodes to nothing. Then the step
event's next state is the state with PC advanced by 2 and w added to the model's record of reports, and nothing else
changed, and execution goes on: the step answers a next state, followed by State.between. The record is the model's
own (log entry 5), and so are the environment's inputs and ticks after a step (log entry 6). Which words decode to
nothing is the spec's general knowledge and decisions (log entries 1 and 7). -/
def Obligations.UnrecognizedWordIsReportedAndPassed : Prop :=
  (∀ (s : State) (w : Word), s.result = .unrecognized w ↔ StandsAtPc s w ∧ ∃ r, decode w = .error r) ∧
  (∀ (s : State) (w : Word) (r : Reject), StandsAtPc s w → decode w = .error r →
    s.cycle = .next { s with pc := s.pc + 2#16, reports := w :: s.reports } ∧
    step s = .next { s with pc := s.pc + 2#16, reports := w :: s.reports }.between)

/-- If PC is above 0xFFE the step event, the step and the step's result are the fault OutOfBoundsAccess with the larger
of PC and 0x1000: no wrap to address 0, the spec's decision D8 (log entry 8). That the fault carries the first bad
address is its decision D30 (log entry 13). -/
def Obligations.FetchBeyondMemoryFaults : Prop :=
  ∀ s : State, 0xFFE < s.pc.toNat →
    s.cycle = .fault (.outOfBoundsAccess (max s.pc.toNat 0x1000)) ∧
    step s = .fault (.outOfBoundsAccess (max s.pc.toNat 0x1000)) ∧
    s.result = .fault (.outOfBoundsAccess (max s.pc.toNat 0x1000))

/-- For every state, step is the run of the event sequence that consists of one step event and then as many tick events
as the input of this step says, faults included. The number of ticks is the environment's free choice (log entry 6). -/
def Obligations.StepIsOneStepEventThenTicks : Prop :=
  ∀ s : State, step s = State.runEvents (Event.step :: List.replicate s.input.ticks Event.tick) s

/-- For every state exactly one of three holds: the result is a fault and step is that fault; the result is Ok and step
answers a next state with the record of reports unchanged; the result is Unrecognized(w) and step answers a next
state with w added to the record. So step never refuses and a step meets at most one condition. The record is the
model's own (log entry 5), the ticks after a step are the environment's choice (log entry 6), and the order of the
checks is the spec's decision D13 (log entry 13). -/
def Obligations.StepResultIsTheOutcome : Prop :=
  ∀ s : State,
    (∃ f, s.result = .fault f ∧ step s = .fault f) ∨
    (∃ t, s.result = .ok ∧ step s = .next t ∧ t.reports = s.reports) ∨
    (∃ t w, s.result = .unrecognized w ∧ step s = .next t ∧ t.reports = w :: s.reports)

/-- exec of an instruction is the fault StackOverflow if and only if the instruction is a call and the stack holds 16
entries. The fault has no successor state (the spec's decision D11, log entry 9). -/
def Obligations.StackOverflowOnlyByCallWhenFull : Prop :=
  ∀ (i : Instr) (s : State),
    exec i s = .fault .stackOverflow ↔ (∃ nnn, i = .call nnn) ∧ s.sp.val = 16

/-- Formalises R222. exec of an instruction is the fault StackUnderflow if and only if the instruction is return and the
stack is empty; and a step's result is that fault if and only if the word at PC decodes to return and the stack is
empty. The fault carries no information. -/
def Obligations.StackUnderflowOnlyByReturnWhenEmpty : Prop :=
  (∀ (i : Instr) (s : State), exec i s = .fault .stackUnderflow ↔ i = .ret ∧ s.sp.val = 0) ∧
  (∀ s : State, s.result = .fault .stackUnderflow ↔
    (∃ w, StandsAtPc s w ∧ decode w = .ok .ret) ∧ s.sp.val = 0)

/-- exec of an instruction is the fault OutOfBoundsAccess(a) if and only if the instruction accesses at least one data
byte (draw-sprite with N > 0, store-BCD, register-dump, register-load), the last of them lies above 0xFFF, and a is
the first address out of range, the larger of I and 0x1000 (the spec's decision D30). The sum is a natural number
and never wraps (decision D9, log entry 8). -/
def Obligations.OutOfBoundsOnlyByDataPastTheEnd : Prop :=
  ∀ (i : Instr) (s : State) (a : Nat),
    exec i s = .fault (.outOfBoundsAccess a) ↔
      0 < i.dataBytes ∧ 0x1000 < s.i.toNat + i.dataBytes ∧ a = max s.i.toNat 0x1000

/-- For every instruction of all 34 constructors: exec answers a next state if and only if a call finds room on the
stack, a return finds an entry, and the data bytes (if any) end at most at 0xFFF. exec never refuses an instruction.
The address of a data byte is a natural sum that never wraps, the spec's decision D9 (log entry 8). -/
def Obligations.InstructionCompletesExactlyIfItFits : Prop :=
  (∀ (i : Instr) (s : State), (∃ t, exec i s = .next t) ↔ i.fits s) ∧
  (∀ (i : Instr) (s : State) (r : Refusal), exec i s ≠ .refused r)

/-- From every state that meets Inv, a step that answers a next state answers one that meets Inv: the memory list is
canonical, PC is at most 0x10FE, and every stack entry in use lies in 0x0002 to 0x1000. The list form of memory, and
so its canonical form, is the model's own (log entry 11). The bound 0x10FE rests on the unmasked jump-with-offset of
the spec's decision D8 (log entry 8), and what the step does after its step event on log entry 6. -/
def Obligations.EveryStepKeepsTheInvariant : Prop :=
  ∀ s t : State, Inv s → step s = .next t → Inv t

/-- The state after reset with an empty image meets Inv: the memory list is canonical, PC is at most 0x10FE, and every
stack entry in use lies in 0x0002 to 0x1000. The list form of memory is the model's own (log entry 11), and the
clause on the stack holds because the stack is empty at reset, the spec's decision D7 (log entry 2). -/
def Obligations.InvariantHoldsAtReset : Prop :=
  Inv State.reset

/-- From every state that meets Inv, every finite sequence of events that ends in a state ends in one that meets Inv, in
any order and ratio of steps and ticks, resets with any image included. Inv is that the memory list is canonical, PC
is at most 0x10FE, and every stack entry in use lies in 0x0002 to 0x1000. The list form of memory is the model's own
(log entry 11), the bound 0x10FE rests on decision D8 of the spec (log entry 8), and what a reset leaves and which
images it takes on its decisions D7 and D20 and on its font (log entries 2, 3 and 12). -/
def Obligations.EveryRunOfEventsKeepsTheInvariant : Prop :=
  ∀ (es : List Event) (s t : State), Inv s → State.runEvents es s = .next t → Inv t

/-- Instructions ldImm and ldReg: exec answers a next state in which V[X] is NN, or the old V[Y], and every other
register and every other field is unchanged, V[15] included unless X is 15. -/
def Obligations.LoadImmediateAndMoveSetOneRegister : Prop :=
  ∀ (x y : RegIx) (nn : Byte) (s : State),
    (∃ t, exec (.ldImm x nn) s = .next t ∧ SetsRegister x nn s t) ∧
    (∃ t, exec (.ldReg x y) s = .next t ∧ SetsRegister x (s.getV y) s t)

/-- Instruction addImm: exec answers a next state in which V[X] is (V[X] + NN) mod 256 and every other register and
every other field is unchanged, so V[15] is not written as a flag. -/
def Obligations.AddImmediateWrapsWithoutFlag : Prop :=
  ∀ (x : RegIx) (nn : Byte) (s : State), ∃ t, exec (.addImm x nn) s = .next t ∧
    (t.getV x).toNat = ((s.getV x).toNat + nn.toNat) % 256 ∧
    (∀ r, r ≠ x → t.getV r = s.getV r) ∧ t = { s with v := t.v }

/-- Instructions orReg, andReg and xorReg: exec answers a next state in which bit k of V[X] is the or, and, or exclusive
or of bit k of the old V[X] and V[Y], for every k, and every other register and every other field is unchanged;
V[15] is not cleared or written as a flag. That the logic operations set no flag is the spec's decision D28 (log
entry 8). -/
def Obligations.LogicOpsWorkBitByBit : Prop :=
  ∀ (x y : RegIx) (s : State),
    (∃ t, exec (.orReg x y) s = .next t ∧ SetsRegister x (t.getV x) s t ∧
      ∀ k, (t.getV x).getLsbD k = ((s.getV x).getLsbD k || (s.getV y).getLsbD k)) ∧
    (∃ t, exec (.andReg x y) s = .next t ∧ SetsRegister x (t.getV x) s t ∧
      ∀ k, (t.getV x).getLsbD k = ((s.getV x).getLsbD k && (s.getV y).getLsbD k)) ∧
    (∃ t, exec (.xorReg x y) s = .next t ∧ SetsRegister x (t.getV x) s t ∧
      ∀ k, (t.getV x).getLsbD k = ((s.getV x).getLsbD k ^^ (s.getV y).getLsbD k))

/-- Instruction addReg: exec answers a next state in which V[15] is 1 if the sum of the old V[X] and V[Y] exceeds 255
and else 0, V[X] for X other than 15 is the sum mod 256, and every other register and every other field is
unchanged. -/
def Obligations.AddRegistersSumAndCarry : Prop :=
  ∀ (x y : RegIx) (s : State), ∃ t, exec (.addReg x y) s = .next t ∧
    SetsFlagged x (((s.getV x).toNat + (s.getV y).toNat) % 256)
      (if 255 < (s.getV x).toNat + (s.getV y).toNat then 1 else 0) s t

/-- Instructions subReg and subnReg: exec answers a next state in which V[15] is 1 if the minuend is at least the
subtrahend (equal included) and else 0, V[X] for X other than 15 is the difference of the old operands, plus 256 on
a borrow, and every other register and every other field is unchanged. subReg computes VX - VY, subnReg VY - VX. -/
def Obligations.SubtractsDifferenceAndNoBorrow : Prop :=
  ∀ (x y : RegIx) (s : State),
    (∃ t, exec (.subReg x y) s = .next t ∧
      SetsFlagged x
        (if (s.getV y).toNat ≤ (s.getV x).toNat then (s.getV x).toNat - (s.getV y).toNat
          else (s.getV x).toNat + 256 - (s.getV y).toNat)
        (if (s.getV y).toNat ≤ (s.getV x).toNat then 1 else 0) s t) ∧
    (∃ t, exec (.subnReg x y) s = .next t ∧
      SetsFlagged x
        (if (s.getV x).toNat ≤ (s.getV y).toNat then (s.getV y).toNat - (s.getV x).toNat
          else (s.getV y).toNat + 256 - (s.getV x).toNat)
        (if (s.getV x).toNat ≤ (s.getV y).toNat then 1 else 0) s t)

/-- Instructions shr and shl, for both values of Q_SHIFT_SRC: with a the old V[X] (or V[Y] when the parameter is VY),
exec answers a next state in which V[15] is a mod 2 for shr and a div 128 for shl, V[X] for X other than 15 is a div
2 or 2a mod 256, and every other register and every other field is unchanged. The VY variant is the spec's, marked
there as general knowledge (log entry 4). -/
def Obligations.ShiftsHalveAndDouble : Prop :=
  ∀ (x y : RegIx) (s : State) (a : Nat),
    a = (s.getV (if s.params.shiftSrc = .vx then x else y)).toNat →
    (∃ t, exec (.shr x y) s = .next t ∧ SetsFlagged x (a / 2) (a % 2) s t) ∧
    (∃ t, exec (.shl x y) s = .next t ∧ SetsFlagged x (2 * a % 256) (a / 128) s t)

/-- On a machine whose shifts read VX, for X other than 15: after shr and then shl on the same register, the register
has its first value if and only if its bit 0 was 0; and after shl and then shr, if and only if its bit 7 was 0. -/
def Obligations.ShiftRoundTripKeepsUnlostBits : Prop :=
  ∀ (x y y' : RegIx) (s t u : State), s.params.shiftSrc = .vx → x ≠ 15 →
    (exec (.shr x y) s = .next t → exec (.shl x y') t = .next u →
      (u.getV x = s.getV x ↔ (s.getV x).getLsbD 0 = false)) ∧
    (exec (.shl x y) s = .next t → exec (.shr x y') t = .next u →
      (u.getV x = s.getV x ↔ (s.getV x).getLsbD 7 = false))

/-- Instruction rnd: exec answers a next state in which V[X] is the random byte of the step's input AND NN, has no bit
that NN lacks, and every other register and every other field is unchanged. The byte is free: the statement holds
for every input (log entry 6). -/
def Obligations.RandomIsTheInputByteMasked : Prop :=
  ∀ (x : RegIx) (nn : Byte) (s : State), ∃ t, exec (.rnd x nn) s = .next t ∧
    SetsRegister x (s.input.rnd &&& nn) s t ∧ ∀ k, nn.getLsbD k = false → (t.getV x).getLsbD k = false

/-- Instruction jp: exec answers a next state in which PC is NNN and every other field is unchanged. -/
def Obligations.JumpSetsPc : Prop :=
  ∀ (nnn : Addr12) (s : State), ∃ t, exec (.jp nnn) s = .next t ∧
    t.pc.toNat = nnn.toNat ∧ t = { s with pc := t.pc }

/-- Instruction jpV0, for both values of Q_JUMP_REG: exec answers a next state in which PC is, as a natural number, NNN
plus V[0] (or plus the register named by the top nibble of NNN when the parameter is VX), at most 0x10FE, and every
other field is unchanged. That nothing is masked is the spec's decision D8, the VX variant its general knowledge
(log entries 4 and 8). -/
def Obligations.JumpWithOffsetAddsUnmasked : Prop :=
  ∀ (nnn : Addr12) (s : State), ∃ t, exec (.jpV0 nnn) s = .next t ∧
    t.pc.toNat = nnn.toNat +
      (s.getV (if s.params.jumpReg = .v0 then 0 else Fin.ofNat 16 (nnn.toNat / 256))).toNat ∧
    t.pc.toNat ≤ 0x10FE ∧ t = { s with pc := t.pc }

/-- Instruction call: with fewer than 16 entries in use exec answers a next state in which the entry at the old depth is
the old (post-fetch) PC, every other entry is unchanged, the depth is one more, PC is NNN, and every other field is
unchanged. With 16 entries exec is the fault StackOverflow. -/
def Obligations.CallPushesThePostFetchPc : Prop :=
  ∀ (nnn : Addr12) (s : State),
    (s.sp.val < 16 → ∃ t, exec (.call nnn) s = .next t ∧ t.pc.toNat = nnn.toNat ∧ t.sp.val = s.sp.val + 1 ∧
      (∀ j : Fin 16, t.stack[j.val] = if j.val = s.sp.val then s.pc else s.stack[j.val]) ∧
      t = { s with pc := t.pc, sp := t.sp, stack := t.stack }) ∧
    (s.sp.val = 16 → exec (.call nnn) s = .fault .stackOverflow)

/-- Instruction ret: with at least one entry in use exec answers a next state in which PC is the top entry, the depth is
one less, and every other field is unchanged, the stack entries included. With none exec is the fault
StackUnderflow. -/
def Obligations.ReturnPopsThePc : Prop :=
  ∀ s : State,
    (0 < s.sp.val → ∃ t, exec .ret s = .next t ∧ t.sp.val + 1 = s.sp.val ∧
      (∀ j : Fin 16, j.val + 1 = s.sp.val → t.pc = s.stack[j.val]) ∧ t = { s with pc := t.pc, sp := t.sp }) ∧
    (s.sp.val = 0 → exec .ret s = .fault .stackUnderflow)

/-- After a call, in any state that has the stack and the depth the call left, whatever else it has, return answers that
state with PC the one the call pushed and the depth the one before the call. -/
def Obligations.ReturnUndoesCall : Prop :=
  ∀ (nnn : Addr12) (s t u : State), exec (.call nnn) s = .next t → u.sp = t.sp → u.stack = t.stack →
    exec .ret u = .next { u with pc := s.pc, sp := s.sp }

/-- Instructions seImm, sneImm, seReg, sneReg, skp and sknp, each with its condition: exec answers a next state in which
PC is advanced by 2 if the condition holds and unchanged if not, and every other field is unchanged. The low nibble
of seReg and sneReg plays no part, the spec's decision D4 (log entry 7). A key number above 15 is answered by a free
boolean (log entry 10). -/
def Obligations.SkipsMovePcByTwoOrNothing : Prop :=
  ∀ (x y : RegIx) (nn : Byte) (n : Nibble) (s : State) (i : Instr) (c : Bool),
    ((i = .seImm x nn ∧ c = decide (s.getV x = nn)) ∨ (i = .sneImm x nn ∧ c = decide (s.getV x ≠ nn)) ∨
      (i = .seReg x y n ∧ c = decide (s.getV x = s.getV y)) ∨
      (i = .sneReg x y n ∧ c = decide (s.getV x ≠ s.getV y)) ∨
      (i = .skp x ∧ c = keyAnswer s (s.getV x)) ∨ (i = .sknp x ∧ c = !keyAnswer s (s.getV x))) →
    ∃ t, exec i s = .next t ∧ t.pc = (if c then s.pc + 2#16 else s.pc) ∧ t = { s with pc := t.pc }

/-- Formalises R118. If the word at PC is one of the six skips, the step event answers the state with PC at a + 4 if the
skip's condition holds and at a + 2 if not, as natural numbers without wrap, and nothing else changed: no register,
no report, whatever the skipped bytes are. -/
def Obligations.SkipStepsOverOneSlot : Prop :=
  ∀ (s : State) (w : Word) (i : Instr) (c : Bool), StandsAtPc s w → decode w = .ok i → i.skipCondition s = some c →
    ∃ t, s.cycle = .next t ∧ t.pc.toNat = s.pc.toNat + (if c then 4 else 2) ∧ t = { s with pc := t.pc }

/-- For the same operands and state exactly one of seImm and sneImm moves PC, exactly one of seReg and sneReg, and, for
a key number up to 15 and the same key state, exactly one of skp and sknp. The low nibbles of seReg and sneReg may
differ, as they play no part, the spec's decision D4 (log entry 7). -/
def Obligations.OppositeSkipsExcludeEachOther : Prop :=
  ∀ (x y : RegIx) (nn : Byte) (n n' : Nibble) (s : State) (i j : Instr),
    ((i = .seImm x nn ∧ j = .sneImm x nn) ∨ (i = .seReg x y n ∧ j = .sneReg x y n') ∨
      (i = .skp x ∧ j = .sknp x ∧ (s.getV x).toNat ≤ 15)) →
    ∃ t u, exec i s = .next t ∧ exec j s = .next u ∧
      ((t.pc = s.pc + 2#16 ∧ u.pc = s.pc) ∨ (t.pc = s.pc ∧ u.pc = s.pc + 2#16))

/-- Instruction ldI: exec answers a next state in which I is NNN and every other field is unchanged. -/
def Obligations.SetAddressLoadsNnn : Prop :=
  ∀ (nnn : Addr12) (s : State), ∃ t, exec (.ldI nnn) s = .next t ∧
    t.i.toNat = nnn.toNat ∧ t = { s with i := t.i }

/-- Instruction addIVx: exec answers a next state in which I is (I + old V[X]) mod 2^16, V[15] is 1 if the new I is
above 0x0FFF and else 0, every other register and every other field is unchanged. The wrap and the test of the
stored value are the spec's decision D10 (log entry 8). -/
def Obligations.AddToAddressWrapsAndFlagsRange : Prop :=
  ∀ (x : RegIx) (s : State), ∃ t, exec (.addIVx x) s = .next t ∧
    t.i.toNat = (s.i.toNat + (s.getV x).toNat) % 65536 ∧
    (t.getV 15).toNat = (if 0x0FFF < t.i.toNat then 1 else 0) ∧
    (∀ r, r ≠ 15 → t.getV r = s.getV r) ∧ t = { s with i := t.i, v := t.v }

/-- Instruction ldFVx: exec answers a next state in which I is 5 times V[X] for all 256 values of V[X] and every other
field is unchanged. That V[X] is not masked is the spec's decision D25 (log entry 8). -/
def Obligations.LoadFontAddressIsFiveTimes : Prop :=
  ∀ (x : RegIx) (s : State), ∃ t, exec (.ldFVx x) s = .next t ∧
    t.i.toNat = 5 * (s.getV x).toNat ∧ t = { s with i := t.i }

/-- Instruction ldBVx: if I + 2 is at most 0xFFF, exec answers a next state in which the bytes at I, I+1 and I+2 are the
hundreds, tens and ones of V[X], each at most 9 and together V[X] again, every byte outside these three addresses
reads as before, and every other field is unchanged. -/
def Obligations.StoreBcdWritesThreeDigits : Prop :=
  ∀ (x : RegIx) (s : State), s.i.toNat + 2 ≤ 0xFFF → ∃ t, exec (.ldBVx x) s = .next t ∧
    (t.mem.read s.i.toNat).toNat = (s.getV x).toNat / 100 ∧
    (t.mem.read (s.i.toNat + 1)).toNat = (s.getV x).toNat / 10 % 10 ∧
    (t.mem.read (s.i.toNat + 2)).toNat = (s.getV x).toNat % 10 ∧
    (t.mem.read s.i.toNat).toNat * 100 + (t.mem.read (s.i.toNat + 1)).toNat * 10
      + (t.mem.read (s.i.toNat + 2)).toNat = (s.getV x).toNat ∧
    KeepsMemoryOutside s.i.toNat 3 s t ∧ t = { s with mem := t.mem }

/-- Instruction ldMemVx, for both values of Q_MEM_INC: if I + X is at most 0xFFF, exec answers a next state in which the
byte at I + k is V[k] for every k up to X, every byte outside these X + 1 addresses reads as before, I is unchanged
(or I + X + 1 mod 2^16 when the parameter is true), and every other field is unchanged. The variant is the spec's,
marked there as general knowledge (log entry 4). -/
def Obligations.RegisterDumpStoresTheRegisters : Prop :=
  ∀ (x : RegIx) (s : State), s.i.toNat + x.val ≤ 0xFFF → ∃ t, exec (.ldMemVx x) s = .next t ∧
    (∀ k : RegIx, k.val ≤ x.val → t.mem.read (s.i.toNat + k.val) = s.getV k) ∧
    KeepsMemoryOutside s.i.toNat (x.val + 1) s t ∧
    t.i.toNat = (if s.params.memInc then (s.i.toNat + x.val + 1) % 65536 else s.i.toNat) ∧
    t = { s with mem := t.mem, i := t.i }

/-- Instruction ldVxMem, for both values of Q_MEM_INC: if I + X is at most 0xFFF, exec answers a next state in which
V[k] is the byte at I + k for every k up to X, every register above X is unchanged, I is unchanged (or I + X + 1 mod
2^16 when the parameter is true), and every other field is unchanged, memory included. The variant is the spec's,
marked there as general knowledge (log entry 4). -/
def Obligations.RegisterLoadReadsTheRegisters : Prop :=
  ∀ (x : RegIx) (s : State), s.i.toNat + x.val ≤ 0xFFF → ∃ t, exec (.ldVxMem x) s = .next t ∧
    (∀ k : RegIx, k.val ≤ x.val → t.getV k = s.mem.read (s.i.toNat + k.val)) ∧
    (∀ k : RegIx, x.val < k.val → t.getV k = s.getV k) ∧
    t.i.toNat = (if s.params.memInc then (s.i.toNat + x.val + 1) % 65536 else s.i.toNat) ∧
    t = { s with v := t.v, i := t.i }

/-- With Q_MEM_INC false: after a register-dump that completes, from the same state with any register contents,
register-load with the same X completes and V[0] to V[X] hold what was dumped. -/
def Obligations.LoadAfterDumpRestoresTheRegisters : Prop :=
  ∀ (x : RegIx) (s t : State) (v : Vector Byte 16), s.params.memInc = false → exec (.ldMemVx x) s = .next t →
    ∃ u, exec (.ldVxMem x) { t with v := v } = .next u ∧ ∀ k : RegIx, k.val ≤ x.val → u.getV k = s.getV k

/-- After a register-dump that completes, a fetch with PC at any address I + k with k below X reads V[k] as the high
byte and V[k+1] as the low byte: a store is seen by the next fetch with nothing in between. -/
def Obligations.StoresAreSeenByTheNextFetch : Prop :=
  ∀ (x : RegIx) (s t : State), exec (.ldMemVx x) s = .next t →
    ∀ (k : RegIx) (a : Word), k.val < x.val → a.toNat = s.i.toNat + k.val →
      (t.setPc a).fetch = .ok (wordOfBytes (s.getV k) (s.getV (k + 1)))

/-- Two memory lists in canonical form whose reads agree at all addresses are the same list. The list form is the
model's own (log entry 11). -/
def Obligations.CanonicalMemoriesAreEqualIfTheyReadEqual : Prop :=
  ∀ m m' : Memory, m.wf = true → m'.wf = true → (∀ a, m.read a = m'.read a) → m = m'

/-- Instruction cls: exec answers a next state in which every cell is unlit and every other field is unchanged, V[15]
included. -/
def Obligations.ClearScreenUnlightsEveryCell : Prop :=
  ∀ s : State, ∃ t, exec .cls s = .next t ∧ (∀ r c, t.display r c = false) ∧ t = { s with fb := t.fb }

/-- Formalises R181. DrawRow(x, y, bits): a cell changes if and only if its row is y mod 32 and its column is (x mod 64
+ j) mod 64 for a j below 8 whose bit 7 - j is 1; the answer is true if and only if one of those cells was lit
before. -/
def Obligations.RowBlitTogglesAndReportsCollision : Prop :=
  ∀ (fb : Framebuffer) (x y : Nat) (bits : Byte),
    (∀ (r : Fin 32) (c : Fin 64),
      Framebuffer.lit (drawRow fb x y bits).1 r c ≠ Framebuffer.lit fb r c ↔
        r.val = y % 32 ∧ ∃ j, j < 8 ∧ bits.getLsbD (7 - j) = true ∧ c.val = (x % 64 + j) % 64) ∧
    ((drawRow fb x y bits).2 = true ↔
      ∃ (j : Nat) (r : Fin 32) (c : Fin 64), j < 8 ∧ bits.getLsbD (7 - j) = true ∧ r.val = y % 32 ∧
        c.val = (x % 64 + j) % 64 ∧ Framebuffer.lit fb r c = true)

/-- Instruction drw: if N is 0 or I + N - 1 is at most 0xFFF, exec answers a next state in which a cell differs from
before if and only if the sprite of N rows at the old V[X], V[Y] covers it with a 1 bit, V[15] is 1 if a covered
cell was lit before and else 0 (also when N is 0), every other register and every other field is unchanged. That the
coordinates are the old values even for register 15 is the spec's decision D27 (log entry 8). -/
def Obligations.DrawSpriteTogglesAndSetsCollision : Prop :=
  ∀ (x y : RegIx) (n : Nibble) (s : State), n.toNat = 0 ∨ s.i.toNat + n.toNat ≤ 0x1000 →
    ∃ t, exec (.drw x y n) s = .next t ∧
      (∀ r c, t.display r c ≠ s.display r c ↔ SpriteCovers s (s.getV x).toNat (s.getV y).toNat n.toNat r c) ∧
      ((∃ r c, s.display r c = true ∧ SpriteCovers s (s.getV x).toNat (s.getV y).toNat n.toNat r c) →
        t.getV 15 = 0x01#8) ∧
      ((¬ ∃ r c, s.display r c = true ∧ SpriteCovers s (s.getV x).toNat (s.getV y).toNat n.toNat r c) →
        t.getV 15 = 0x00#8) ∧
      (∀ r, r ≠ 15 → t.getV r = s.getV r) ∧ t = { s with fb := t.fb, v := t.v }

/-- If draw-sprite completes, drawing the same sprite again at the same location (the registers as they were) completes,
gives back the framebuffer of before the first draw, and sets V[15] to 1 if and only if the first draw left a
covered cell lit. -/
def Obligations.DrawingTwiceRestoresTheScreen : Prop :=
  ∀ (x y : RegIx) (n : Nibble) (s t : State), exec (.drw x y n) s = .next t →
    ∃ u, exec (.drw x y n) { t with v := s.v } = .next u ∧ u.fb = s.fb ∧
      (u.getV 15 = 0x01#8 ↔
        ∃ r c, t.display r c = true ∧ SpriteCovers s (s.getV x).toNat (s.getV y).toNat n.toNat r c)

/-- Instruction ldVxK: with no key pressed exec answers the state with PC rewound by 2 and nothing else changed; with a
key pressed it answers a next state in which V[X] is the number of a pressed key and every other register and every
other field is unchanged. Which of several pressed keys is free (log entry 10), and so are the keys themselves, the
step's input (log entry 6). -/
def Obligations.WaitForKeyPollsOrStoresAPressedKey : Prop :=
  ∀ (x : RegIx) (s : State),
    (s.input.keys = 0x0000#16 → exec (.ldVxK x) s = .next { s with pc := s.pc - 2#16 }) ∧
    (s.input.keys ≠ 0x0000#16 → ∃ (k : Fin 16) (t : State), exec (.ldVxK x) s = .next t ∧
      s.input.keys.getLsbD k.val = true ∧ SetsRegister x (BitVec.ofNat 8 k.val) s t)

/-- For every pressed key there is a value of the free choice, with all else of the input as it is, under which wait-
for-key stores that key. That any pressed key may be stored is the spec's decision D15 (log entry 10). The script
that holds the input is the model's own (log entry 6). -/
def Obligations.AnyPressedKeyCanBeStored : Prop :=
  ∀ (x : RegIx) (s : State) (k : Fin 16), s.input.keys.getLsbD k.val = true →
    ∃ (p : Fin 16) (t : State),
      exec (.ldVxK x) { s with script := { s.input with pick := p } :: s.script.tail } = .next t ∧
        t.getV x = BitVec.ofNat 8 k.val

/-- If the word at PC is wait-for-key and no key is pressed, the step event answers the very same state: PC comes back
to the instruction and there is no waiting flag. The keys are the step's input (log entry 6). -/
def Obligations.WaitingForAKeyChangesNothing : Prop :=
  ∀ (s : State) (w : Word) (x : RegIx), StandsAtPc s w → decode w = .ok (.ldVxK x) → s.input.keys = 0x0000#16 →
    s.cycle = .next s

/-- Instructions ldVxDt, ldDtVx and ldStVx: exec answers a next state in which V[X] is DT, or DT is V[X], or ST is V[X]
and the tone signal is on exactly if V[X] is not 0; every other register and every other field is unchanged. -/
def Obligations.TimerInstructionsMoveOneByte : Prop :=
  ∀ (x : RegIx) (s : State),
    (∃ t, exec (.ldVxDt x) s = .next t ∧ SetsRegister x s.dt s t) ∧
    (∃ t, exec (.ldDtVx x) s = .next t ∧ t.dt = s.getV x ∧ t = { s with dt := t.dt }) ∧
    (∃ t, exec (.ldStVx x) s = .next t ∧ t.st = s.getV x ∧ (t.tone = true ↔ s.getV x ≠ 0x00#8) ∧
      t = { s with st := t.st })

/-- Formalises R233. The tick event answers the state with DT and ST each decremented if nonzero and nothing else
changed; any number n of tick events in a row answers a state in which each timer is the larger of its value less n
and 0, and nothing else is changed. A tick returns no condition. -/
def Obligations.TickDecrementsAndSaturates : Prop :=
  (∀ s : State, s.apply .tick = .next { s with
    dt := if s.dt ≠ 0x00#8 then s.dt - 0x01#8 else s.dt, st := if s.st ≠ 0x00#8 then s.st - 0x01#8 else s.st }) ∧
  (∀ (s : State) (n : Nat), ∃ t, State.runEvents (List.replicate n Event.tick) s = .next t ∧
    t.dt.toNat = s.dt.toNat - n ∧ t.st.toNat = s.st.toNat - n ∧ t = { s with dt := t.dt, st := t.st })

/-- If the word at PC is 0x1000 plus PC, the step event answers the very same state. The definition of the end of a run
is the spec's decision D29, and the pattern is general knowledge (log entry 1). -/
def Obligations.JumpToSelfIsTheEndOfARun : Prop :=
  ∀ (s : State) (w : Word), StandsAtPc s w → w.toNat = 0x1000 + s.pc.toNat → s.cycle = .next s

/-- For every instruction that completes: the framebuffer is unchanged unless it is clear-screen or draw-sprite; memory
unless it is store-BCD or register-dump; the stack and its depth unless it is call or return; DT unless it is set-
delay-timer; ST unless it is set-sound-timer; I unless it is one of the three instructions that set it, or register-
dump or register-load with Q_MEM_INC true; the parameters, the reports and the environment's fields always, which
are the model's own fields (log entries 4, 5 and 6). -/
def Obligations.EachFieldHasFewWriters : Prop :=
  ∀ (i : Instr) (s t : State), exec i s = .next t →
    (i ≠ .cls → (∀ x y n, i ≠ .drw x y n) → t.fb = s.fb) ∧
    ((∀ x, i ≠ .ldBVx x) → (∀ x, i ≠ .ldMemVx x) → t.mem = s.mem) ∧
    (i ≠ .ret → (∀ nnn, i ≠ .call nnn) → t.sp = s.sp ∧ t.stack = s.stack) ∧
    ((∀ x, i ≠ .ldDtVx x) → t.dt = s.dt) ∧ ((∀ x, i ≠ .ldStVx x) → t.st = s.st) ∧
    ((∀ nnn, i ≠ .ldI nnn) → (∀ x, i ≠ .addIVx x) → (∀ x, i ≠ .ldFVx x) →
      (s.params.memInc = false ∨ ((∀ x, i ≠ .ldMemVx x) ∧ ∀ x, i ≠ .ldVxMem x)) → t.i = s.i) ∧
    t.params = s.params ∧ t.reports = s.reports ∧ t.script = s.script ∧ t.draw = s.draw

/-- For every instruction that completes, a register it does not name as a destination is unchanged, except register 15
for the seven instructions that write a flag. That OR, AND and XOR are not among them is the spec's decision D28
(log entry 8). -/
def Obligations.RegistersChangeOnlyWhereNamed : Prop :=
  ∀ (i : Instr) (s t : State) (r : RegIx), exec i s = .next t → i.names r = false →
    (i.setsFlag = false ∨ r ≠ 15) → t.getV r = s.getV r

/-- If the word at PC decodes to an instruction that is not return, jump, call, a skip, jump-with-offset or wait-for-
key, and the step event answers a next state, then PC there is a + 2 as a natural number. -/
def Obligations.PlainInstructionsAdvancePcByTwo : Prop :=
  ∀ (s t : State) (w : Word) (i : Instr), StandsAtPc s w → decode w = .ok i → i.movesPc = false →
    s.cycle = .next t → t.pc.toNat = s.pc.toNat + 2

/-- For every other instruction, exec from a state with any other script and draw counter is exec from the state, with
the script and counter put in afterwards: the keys, the random byte and the free choices cannot be learnt through
it. The script and the counter are the model's own way of showing the environment (log entry 6). -/
def Obligations.OnlySamplersDependOnTheEnvironment : Prop :=
  ∀ (i : Instr) (s : State) (sc : List Config.Input) (d : Nat), i.samples = false →
    exec i { s with script := sc, draw := d } = thenDo (exec i s) (fun t => { t with script := sc, draw := d })

/-- For every instruction other than the two shifts, register-dump, register-load and jump-with-offset, exec on a
machine with any other parameters is exec on this one, with the parameters put in afterwards. That the parameters
stand in the state is the model's choice (log entry 4). -/
def Obligations.OnlyFiveInstructionsDependOnQuirks : Prop :=
  ∀ (i : Instr) (s : State) (p : Config.Params), i.quirky = false →
    exec i { s with params := p } = thenDo (exec i s) (fun t => { t with params := p })

/-- An image of at most 3584 bytes is loaded: the reset event answers a next state in which PC is 0x200, the depth is 0,
every register, I, both timers and every stack entry are 0, every cell is unlit, no report is recorded, and memory
reads as the 80 font bytes of the machine's FONT below 0x050, as the image from 0x200 on, and as 0 elsewhere below
0x1000; parameters are kept. A longer image is refused. The zeros are the spec's decision D7, the font's place D5,
the limit D20 (log entries 2, 3 and 12). The kept parameters and the emptied record of reports are fields of the
model's own (log entries 4 and 5). -/
def Obligations.ResetEventGivesTheResetState : Prop :=
  ∀ (s : State) (image : List Byte),
    (image.length ≤ 3584 → ∃ t, s.apply (.reset image) = .next t ∧
      t.pc = 0x0200#16 ∧ t.sp.val = 0 ∧ (∀ r, t.getV r = 0x00#8) ∧ t.i = 0x0000#16 ∧ t.dt = 0x00#8 ∧ t.st = 0x00#8 ∧
      (∀ j : Fin 16, t.stack[j.val] = 0x0000#16) ∧ (∀ r c, t.display r c = false) ∧ t.reports = [] ∧
      t.params = s.params ∧
      (∀ a, a < 0x1000 → t.mem.read a =
        if a < 80 then s.params.font.toList.getD a 0x00#8
        else if 0x200 ≤ a ∧ a < 0x200 + image.length then image.getD (a - 0x200) 0x00#8
        else 0x00#8)) ∧
    (3584 < image.length → s.apply (.reset image) = .refused (.imageTooLong image.length))

/-- After a reset with an image of at least two bytes that fits, the next fetch answers the word of the image's first
two bytes, the first one on top. -/
def Obligations.FirstFetchAfterResetReadsTheImage : Prop :=
  ∀ (s t : State) (b0 b1 : Byte) (rest : List Byte), s.apply (.reset (b0 :: b1 :: rest)) = .next t →
    t.fetch = .ok (wordOfBytes b0 b1)

/-- State.reset is resetWith of the default parameters and an empty image, and from any state of a machine with the
default parameters the reset event with an empty image answers State.reset, with the environment's fields script and
draw as they were (log entries 6 and 12). It has the default parameters, PC 0x200, an empty stack, zero in every
stack entry, every register, I and both timers, no tone, an unlit screen, no reports, and memory that reads as the
default font below 0x050 and 0 elsewhere. The zeros are the spec's decision D7, the font its general knowledge, its
place decision D5 (log entries 2 and 3), the record of reports the model's own (log entry 5), the defaults R5's by
decision D17 (log entry 4). -/
def Obligations.StateResetIsResetWithAnEmptyImage : Prop :=
  State.reset = State.resetWith Config.defaults [] ∧
  (∀ s : State, s.params = Config.defaults →
    s.apply (.reset []) = .next { State.reset with script := s.script, draw := s.draw }) ∧
  State.reset.params = Config.defaults ∧ State.reset.reports = [] ∧
  State.reset.pc = 0x0200#16 ∧ State.reset.sp.val = 0 ∧ (∀ j : Fin 16, State.reset.stack[j.val] = 0x0000#16) ∧
  (∀ r, State.reset.getV r = 0x00#8) ∧
  State.reset.i = 0x0000#16 ∧ State.reset.dt = 0x00#8 ∧ State.reset.st = 0x00#8 ∧ State.reset.tone = false ∧
  (∀ r c, State.reset.display r c = false) ∧
  (∀ a, State.reset.mem.read a = if a < 80 then Config.font.toList.getD a 0x00#8 else 0x00#8)
end

