-- ==== Sys2Proof/Laws/Decode.lean ====
section
/-! SUPPORT. The fields of encoded words, and the words of given fields: what the two directions of decoding rest on. -/

namespace Sys2Proof

/-! ### Fields as numbers -/

theorem toNat_fieldOp (w : Word) : (fieldOp w).toNat = w.toNat / 4096 := by
  have := w.isLt
  simp [fieldOp, Nat.shiftRight_eq_div_pow]; omega

theorem val_fieldX (w : Word) : (fieldX w).val = w.toNat / 256 % 16 := by
  simp [fieldX, Nat.shiftRight_eq_div_pow]

theorem val_fieldY (w : Word) : (fieldY w).val = w.toNat / 16 % 16 := by
  simp [fieldY, Nat.shiftRight_eq_div_pow]

theorem toNat_fieldN (w : Word) : (fieldN w).toNat = w.toNat % 16 := by
  simp [fieldN]

theorem toNat_fieldNN (w : Word) : (fieldNN w).toNat = w.toNat % 256 := by
  simp [fieldNN]

theorem toNat_fieldNNN (w : Word) : (fieldNNN w).toNat = w.toNat % 4096 := by
  simp [fieldNNN]

/-! ### Encoded words as numbers -/

theorem toNat_append_eq {m n : Nat} (a : BitVec m) (b : BitVec n) : (a ++ b).toNat = a.toNat * 2 ^ n + b.toNat := by
  rw [BitVec.toNat_append, Nat.shiftLeft_eq, Nat.mul_comm, ← Nat.two_pow_add_eq_or_of_lt b.isLt]

@[simp] theorem toNat_regBits (x : RegIx) : (regBits x).toNat = x.val := rfl

theorem toNat_encNNN (op : Nibble) (nnn : Addr12) : (encNNN op nnn).toNat = op.toNat * 4096 + nnn.toNat := by
  have h : (encNNN op nnn).toNat = op.toNat * 2 ^ 12 + nnn.toNat := by rw [encNNN, toNat_append_eq]
  simp only [Nat.reducePow] at h; exact h

theorem toNat_encXNN (op : Nibble) (x : RegIx) (nn : Byte) :
    (encXNN op x nn).toNat = op.toNat * 4096 + x.val * 256 + nn.toNat := by
  have h : (encXNN op x nn).toNat = (op.toNat * 2 ^ 4 + x.val) * 2 ^ 8 + nn.toNat := by
    rw [encXNN, toNat_append_eq, toNat_append_eq, toNat_regBits]
  rw [h]; ring

theorem toNat_encXYN (op : Nibble) (x y : RegIx) (n : Nibble) :
    (encXYN op x y n).toNat = op.toNat * 4096 + x.val * 256 + y.val * 16 + n.toNat := by
  have h : (encXYN op x y n).toNat = ((op.toNat * 2 ^ 4 + x.val) * 2 ^ 4 + y.val) * 2 ^ 4 + n.toNat := by
    rw [encXYN, toNat_append_eq, toNat_append_eq, toNat_append_eq, toNat_regBits, toNat_regBits]
  rw [h]; ring

/-! ### Fields of encoded words -/

variable (op : Nibble) (x y : RegIx) (n : Nibble) (nn : Byte) (nnn : Addr12)

@[simp] theorem fieldOp_encNNN : fieldOp (encNNN op nnn) = op := by
  apply BitVec.eq_of_toNat_eq; rw [toNat_fieldOp, toNat_encNNN]; have := nnn.isLt; omega

@[simp] theorem fieldNNN_encNNN : fieldNNN (encNNN op nnn) = nnn := by
  apply BitVec.eq_of_toNat_eq; rw [toNat_fieldNNN, toNat_encNNN]; have := nnn.isLt; omega

@[simp] theorem fieldOp_encXNN : fieldOp (encXNN op x nn) = op := by
  apply BitVec.eq_of_toNat_eq; rw [toNat_fieldOp, toNat_encXNN]; have := nn.isLt; omega

@[simp] theorem fieldX_encXNN : fieldX (encXNN op x nn) = x := by
  apply Fin.ext; rw [val_fieldX, toNat_encXNN]; have := nn.isLt; omega

@[simp] theorem fieldNN_encXNN : fieldNN (encXNN op x nn) = nn := by
  apply BitVec.eq_of_toNat_eq; rw [toNat_fieldNN, toNat_encXNN]; have := nn.isLt; omega

@[simp] theorem fieldOp_encXYN : fieldOp (encXYN op x y n) = op := by
  apply BitVec.eq_of_toNat_eq; rw [toNat_fieldOp, toNat_encXYN]; have := n.isLt; omega

@[simp] theorem fieldX_encXYN : fieldX (encXYN op x y n) = x := by
  apply Fin.ext; rw [val_fieldX, toNat_encXYN]; have := n.isLt; omega

@[simp] theorem fieldY_encXYN : fieldY (encXYN op x y n) = y := by
  apply Fin.ext; rw [val_fieldY, toNat_encXYN]; have := n.isLt; omega

@[simp] theorem fieldN_encXYN : fieldN (encXYN op x y n) = n := by
  apply BitVec.eq_of_toNat_eq; rw [toNat_fieldN, toNat_encXYN]; have := n.isLt; omega

/-! ### A word is made of its fields -/

variable (w : Word)

theorem encNNN_fields : encNNN (fieldOp w) (fieldNNN w) = w := by
  apply BitVec.eq_of_toNat_eq; rw [toNat_encNNN, toNat_fieldOp, toNat_fieldNNN]; omega

theorem encXNN_fields : encXNN (fieldOp w) (fieldX w) (fieldNN w) = w := by
  apply BitVec.eq_of_toNat_eq; rw [toNat_encXNN, toNat_fieldOp, val_fieldX, toNat_fieldNN]; omega

theorem encXYN_fields : encXYN (fieldOp w) (fieldX w) (fieldY w) (fieldN w) = w := by
  apply BitVec.eq_of_toNat_eq; rw [toNat_encXYN, toNat_fieldOp, val_fieldX, val_fieldY, toNat_fieldN]; omega

/-- The two bytes of a word make it again (R53). -/
@[simp] theorem wordOfBytes_bytes : wordOfBytes (highByte w) (lowByte w) = w := by
  apply BitVec.eq_of_toNat_eq
  have hw := w.isLt
  rw [wordOfBytes, toNat_append_eq]
  simp [highByte, lowByte, Nat.shiftRight_eq_div_pow]; omega

/-! ### Masked words: the three masks of the opcode table keep whole fields -/

theorem and_encNNN (p q : Nibble) (m n : Addr12) : encNNN p m &&& encNNN q n = encNNN (p &&& q) (m &&& n) :=
  BitVec.and_append

theorem and_encXNN (p q : Nibble) (x y : RegIx) (m n : Byte) :
    encXNN p x m &&& encXNN q y n = encXNN (p &&& q) (regBits x &&& regBits y).toFin (m &&& n) := by
  refine Eq.trans BitVec.and_append ?_
  rw [BitVec.and_append]; rfl

theorem and_encXYN (p q : Nibble) (x y x' y' : RegIx) (m n : Nibble) :
    encXYN p x y m &&& encXYN q x' y' n
      = encXYN (p &&& q) (regBits x &&& regBits x').toFin (regBits y &&& regBits y').toFin (m &&& n) := by
  refine Eq.trans BitVec.and_append ?_
  rw [BitVec.and_append, BitVec.and_append]; rfl

theorem nibble_and_F (p : Nibble) : p &&& 0xF#4 = p := BitVec.and_allOnes
theorem byte_and_FF (b : Byte) : b &&& 0xFF#8 = b := BitVec.and_allOnes
theorem regBits_and_zero (x : RegIx) : (regBits x &&& regBits 0).toFin = (0 : RegIx) := by
  rw [show regBits 0 = 0#4 from rfl, BitVec.and_zero]; rfl

theorem and_F000 : w &&& 0xF000#16 = encNNN (fieldOp w) 0#12 := by
  conv_lhs => rw [← encNNN_fields w, show (0xF000#16 : Word) = encNNN 0xF#4 0#12 from rfl]
  rw [and_encNNN, nibble_and_F, BitVec.and_zero]

theorem and_F00F : w &&& 0xF00F#16 = encXYN (fieldOp w) 0 0 (fieldN w) := by
  conv_lhs => rw [← encXYN_fields w, show (0xF00F#16 : Word) = encXYN 0xF#4 0 0 0xF#4 from rfl]
  rw [and_encXYN, nibble_and_F, nibble_and_F, regBits_and_zero, regBits_and_zero]

theorem and_F0FF : w &&& 0xF0FF#16 = encXNN (fieldOp w) 0 (fieldNN w) := by
  conv_lhs => rw [← encXNN_fields w, show (0xF0FF#16 : Word) = encXNN 0xF#4 0 0xFF#8 from rfl]
  rw [and_encXNN, nibble_and_F, byte_and_FF, regBits_and_zero]

/-! ### Masked encodings: what is left is the pattern of a row -/

theorem encNNN_and_F000 : encNNN op nnn &&& 0xF000#16 = encNNN op 0#12 := by rw [and_F000, fieldOp_encNNN]
theorem encXNN_and_F000 : encXNN op x nn &&& 0xF000#16 = encNNN op 0#12 := by rw [and_F000, fieldOp_encXNN]
theorem encXYN_and_F000 : encXYN op x y n &&& 0xF000#16 = encNNN op 0#12 := by rw [and_F000, fieldOp_encXYN]
theorem encXYN_and_F00F : encXYN op x y n &&& 0xF00F#16 = encXYN op 0 0 n := by
  rw [and_F00F, fieldOp_encXYN, fieldN_encXYN]
theorem encXNN_and_F0FF : encXNN op x nn &&& 0xF0FF#16 = encXNN op 0 nn := by
  rw [and_F0FF, fieldOp_encXNN, fieldNN_encXNN]

end Sys2Proof
end

