-- ==== Sys2Proof/Laws/State.lean ====
section
/-! SUPPORT. One lemma per field of `State` per named update, each true by `rfl`, so that no later proof unfolds a
record update. -/

namespace Sys2Proof.Machine

variable (s : State)

/-! ### setV -/

@[simp] theorem State.setV_v (x : RegIx) (b : Byte) : (s.setV x b).v = s.v.set x.val b := rfl
@[simp] theorem State.setV_i (x : RegIx) (b : Byte) : (s.setV x b).i = s.i := rfl
@[simp] theorem State.setV_pc (x : RegIx) (b : Byte) : (s.setV x b).pc = s.pc := rfl
@[simp] theorem State.setV_sp (x : RegIx) (b : Byte) : (s.setV x b).sp = s.sp := rfl
@[simp] theorem State.setV_stack (x : RegIx) (b : Byte) : (s.setV x b).stack = s.stack := rfl
@[simp] theorem State.setV_dt (x : RegIx) (b : Byte) : (s.setV x b).dt = s.dt := rfl
@[simp] theorem State.setV_st (x : RegIx) (b : Byte) : (s.setV x b).st = s.st := rfl
@[simp] theorem State.setV_fb (x : RegIx) (b : Byte) : (s.setV x b).fb = s.fb := rfl
@[simp] theorem State.setV_mem (x : RegIx) (b : Byte) : (s.setV x b).mem = s.mem := rfl
@[simp] theorem State.setV_params (x : RegIx) (b : Byte) : (s.setV x b).params = s.params := rfl
@[simp] theorem State.setV_reports (x : RegIx) (b : Byte) : (s.setV x b).reports = s.reports := rfl
@[simp] theorem State.setV_script (x : RegIx) (b : Byte) : (s.setV x b).script = s.script := rfl
@[simp] theorem State.setV_draw (x : RegIx) (b : Byte) : (s.setV x b).draw = s.draw := rfl

/-! ### setFlagged -/

@[simp] theorem State.setFlagged_v (x : RegIx) (r : Byte) (f : Bool) : (s.setFlagged x r f).v = (s.v.set x.val r).set 15 (flagByte f) := rfl
@[simp] theorem State.setFlagged_i (x : RegIx) (r : Byte) (f : Bool) : (s.setFlagged x r f).i = s.i := rfl
@[simp] theorem State.setFlagged_pc (x : RegIx) (r : Byte) (f : Bool) : (s.setFlagged x r f).pc = s.pc := rfl
@[simp] theorem State.setFlagged_sp (x : RegIx) (r : Byte) (f : Bool) : (s.setFlagged x r f).sp = s.sp := rfl
@[simp] theorem State.setFlagged_stack (x : RegIx) (r : Byte) (f : Bool) : (s.setFlagged x r f).stack = s.stack := rfl
@[simp] theorem State.setFlagged_dt (x : RegIx) (r : Byte) (f : Bool) : (s.setFlagged x r f).dt = s.dt := rfl
@[simp] theorem State.setFlagged_st (x : RegIx) (r : Byte) (f : Bool) : (s.setFlagged x r f).st = s.st := rfl
@[simp] theorem State.setFlagged_fb (x : RegIx) (r : Byte) (f : Bool) : (s.setFlagged x r f).fb = s.fb := rfl
@[simp] theorem State.setFlagged_mem (x : RegIx) (r : Byte) (f : Bool) : (s.setFlagged x r f).mem = s.mem := rfl
@[simp] theorem State.setFlagged_params (x : RegIx) (r : Byte) (f : Bool) : (s.setFlagged x r f).params = s.params := rfl
@[simp] theorem State.setFlagged_reports (x : RegIx) (r : Byte) (f : Bool) : (s.setFlagged x r f).reports = s.reports := rfl
@[simp] theorem State.setFlagged_script (x : RegIx) (r : Byte) (f : Bool) : (s.setFlagged x r f).script = s.script := rfl
@[simp] theorem State.setFlagged_draw (x : RegIx) (r : Byte) (f : Bool) : (s.setFlagged x r f).draw = s.draw := rfl

/-! ### loadV -/

@[simp] theorem State.loadV_i (bs : List Byte) : (s.loadV bs).i = s.i := rfl
@[simp] theorem State.loadV_pc (bs : List Byte) : (s.loadV bs).pc = s.pc := rfl
@[simp] theorem State.loadV_sp (bs : List Byte) : (s.loadV bs).sp = s.sp := rfl
@[simp] theorem State.loadV_stack (bs : List Byte) : (s.loadV bs).stack = s.stack := rfl
@[simp] theorem State.loadV_dt (bs : List Byte) : (s.loadV bs).dt = s.dt := rfl
@[simp] theorem State.loadV_st (bs : List Byte) : (s.loadV bs).st = s.st := rfl
@[simp] theorem State.loadV_fb (bs : List Byte) : (s.loadV bs).fb = s.fb := rfl
@[simp] theorem State.loadV_mem (bs : List Byte) : (s.loadV bs).mem = s.mem := rfl
@[simp] theorem State.loadV_params (bs : List Byte) : (s.loadV bs).params = s.params := rfl
@[simp] theorem State.loadV_reports (bs : List Byte) : (s.loadV bs).reports = s.reports := rfl
@[simp] theorem State.loadV_script (bs : List Byte) : (s.loadV bs).script = s.script := rfl
@[simp] theorem State.loadV_draw (bs : List Byte) : (s.loadV bs).draw = s.draw := rfl

/-! ### setI -/

@[simp] theorem State.setI_v (a : Word) : (s.setI a).v = s.v := rfl
@[simp] theorem State.setI_i (a : Word) : (s.setI a).i = a := rfl
@[simp] theorem State.setI_pc (a : Word) : (s.setI a).pc = s.pc := rfl
@[simp] theorem State.setI_sp (a : Word) : (s.setI a).sp = s.sp := rfl
@[simp] theorem State.setI_stack (a : Word) : (s.setI a).stack = s.stack := rfl
@[simp] theorem State.setI_dt (a : Word) : (s.setI a).dt = s.dt := rfl
@[simp] theorem State.setI_st (a : Word) : (s.setI a).st = s.st := rfl
@[simp] theorem State.setI_fb (a : Word) : (s.setI a).fb = s.fb := rfl
@[simp] theorem State.setI_mem (a : Word) : (s.setI a).mem = s.mem := rfl
@[simp] theorem State.setI_params (a : Word) : (s.setI a).params = s.params := rfl
@[simp] theorem State.setI_reports (a : Word) : (s.setI a).reports = s.reports := rfl
@[simp] theorem State.setI_script (a : Word) : (s.setI a).script = s.script := rfl
@[simp] theorem State.setI_draw (a : Word) : (s.setI a).draw = s.draw := rfl

/-! ### setPc -/

@[simp] theorem State.setPc_v (a : Word) : (s.setPc a).v = s.v := rfl
@[simp] theorem State.setPc_i (a : Word) : (s.setPc a).i = s.i := rfl
@[simp] theorem State.setPc_pc (a : Word) : (s.setPc a).pc = a := rfl
@[simp] theorem State.setPc_sp (a : Word) : (s.setPc a).sp = s.sp := rfl
@[simp] theorem State.setPc_stack (a : Word) : (s.setPc a).stack = s.stack := rfl
@[simp] theorem State.setPc_dt (a : Word) : (s.setPc a).dt = s.dt := rfl
@[simp] theorem State.setPc_st (a : Word) : (s.setPc a).st = s.st := rfl
@[simp] theorem State.setPc_fb (a : Word) : (s.setPc a).fb = s.fb := rfl
@[simp] theorem State.setPc_mem (a : Word) : (s.setPc a).mem = s.mem := rfl
@[simp] theorem State.setPc_params (a : Word) : (s.setPc a).params = s.params := rfl
@[simp] theorem State.setPc_reports (a : Word) : (s.setPc a).reports = s.reports := rfl
@[simp] theorem State.setPc_script (a : Word) : (s.setPc a).script = s.script := rfl
@[simp] theorem State.setPc_draw (a : Word) : (s.setPc a).draw = s.draw := rfl

/-! ### setDt -/

@[simp] theorem State.setDt_v (b : Byte) : (s.setDt b).v = s.v := rfl
@[simp] theorem State.setDt_i (b : Byte) : (s.setDt b).i = s.i := rfl
@[simp] theorem State.setDt_pc (b : Byte) : (s.setDt b).pc = s.pc := rfl
@[simp] theorem State.setDt_sp (b : Byte) : (s.setDt b).sp = s.sp := rfl
@[simp] theorem State.setDt_stack (b : Byte) : (s.setDt b).stack = s.stack := rfl
@[simp] theorem State.setDt_dt (b : Byte) : (s.setDt b).dt = b := rfl
@[simp] theorem State.setDt_st (b : Byte) : (s.setDt b).st = s.st := rfl
@[simp] theorem State.setDt_fb (b : Byte) : (s.setDt b).fb = s.fb := rfl
@[simp] theorem State.setDt_mem (b : Byte) : (s.setDt b).mem = s.mem := rfl
@[simp] theorem State.setDt_params (b : Byte) : (s.setDt b).params = s.params := rfl
@[simp] theorem State.setDt_reports (b : Byte) : (s.setDt b).reports = s.reports := rfl
@[simp] theorem State.setDt_script (b : Byte) : (s.setDt b).script = s.script := rfl
@[simp] theorem State.setDt_draw (b : Byte) : (s.setDt b).draw = s.draw := rfl

/-! ### setSt -/

@[simp] theorem State.setSt_v (b : Byte) : (s.setSt b).v = s.v := rfl
@[simp] theorem State.setSt_i (b : Byte) : (s.setSt b).i = s.i := rfl
@[simp] theorem State.setSt_pc (b : Byte) : (s.setSt b).pc = s.pc := rfl
@[simp] theorem State.setSt_sp (b : Byte) : (s.setSt b).sp = s.sp := rfl
@[simp] theorem State.setSt_stack (b : Byte) : (s.setSt b).stack = s.stack := rfl
@[simp] theorem State.setSt_dt (b : Byte) : (s.setSt b).dt = s.dt := rfl
@[simp] theorem State.setSt_st (b : Byte) : (s.setSt b).st = b := rfl
@[simp] theorem State.setSt_fb (b : Byte) : (s.setSt b).fb = s.fb := rfl
@[simp] theorem State.setSt_mem (b : Byte) : (s.setSt b).mem = s.mem := rfl
@[simp] theorem State.setSt_params (b : Byte) : (s.setSt b).params = s.params := rfl
@[simp] theorem State.setSt_reports (b : Byte) : (s.setSt b).reports = s.reports := rfl
@[simp] theorem State.setSt_script (b : Byte) : (s.setSt b).script = s.script := rfl
@[simp] theorem State.setSt_draw (b : Byte) : (s.setSt b).draw = s.draw := rfl

/-! ### report -/

@[simp] theorem State.report_v (w : Word) : (s.report w).v = s.v := rfl
@[simp] theorem State.report_i (w : Word) : (s.report w).i = s.i := rfl
@[simp] theorem State.report_pc (w : Word) : (s.report w).pc = s.pc := rfl
@[simp] theorem State.report_sp (w : Word) : (s.report w).sp = s.sp := rfl
@[simp] theorem State.report_stack (w : Word) : (s.report w).stack = s.stack := rfl
@[simp] theorem State.report_dt (w : Word) : (s.report w).dt = s.dt := rfl
@[simp] theorem State.report_st (w : Word) : (s.report w).st = s.st := rfl
@[simp] theorem State.report_fb (w : Word) : (s.report w).fb = s.fb := rfl
@[simp] theorem State.report_mem (w : Word) : (s.report w).mem = s.mem := rfl
@[simp] theorem State.report_params (w : Word) : (s.report w).params = s.params := rfl
@[simp] theorem State.report_reports (w : Word) : (s.report w).reports = w :: s.reports := rfl
@[simp] theorem State.report_script (w : Word) : (s.report w).script = s.script := rfl
@[simp] theorem State.report_draw (w : Word) : (s.report w).draw = s.draw := rfl

/-! ### skipIf -/

@[simp] theorem State.skipIf_v (c : Bool) : (s.skipIf c).v = s.v := rfl
@[simp] theorem State.skipIf_i (c : Bool) : (s.skipIf c).i = s.i := rfl
@[simp] theorem State.skipIf_pc (c : Bool) : (s.skipIf c).pc = if c then s.pc + 2#16 else s.pc := rfl
@[simp] theorem State.skipIf_sp (c : Bool) : (s.skipIf c).sp = s.sp := rfl
@[simp] theorem State.skipIf_stack (c : Bool) : (s.skipIf c).stack = s.stack := rfl
@[simp] theorem State.skipIf_dt (c : Bool) : (s.skipIf c).dt = s.dt := rfl
@[simp] theorem State.skipIf_st (c : Bool) : (s.skipIf c).st = s.st := rfl
@[simp] theorem State.skipIf_fb (c : Bool) : (s.skipIf c).fb = s.fb := rfl
@[simp] theorem State.skipIf_mem (c : Bool) : (s.skipIf c).mem = s.mem := rfl
@[simp] theorem State.skipIf_params (c : Bool) : (s.skipIf c).params = s.params := rfl
@[simp] theorem State.skipIf_reports (c : Bool) : (s.skipIf c).reports = s.reports := rfl
@[simp] theorem State.skipIf_script (c : Bool) : (s.skipIf c).script = s.script := rfl
@[simp] theorem State.skipIf_draw (c : Bool) : (s.skipIf c).draw = s.draw := rfl

/-! ### tick -/

@[simp] theorem State.tick_v : (s.tick).v = s.v := rfl
@[simp] theorem State.tick_i : (s.tick).i = s.i := rfl
@[simp] theorem State.tick_pc : (s.tick).pc = s.pc := rfl
@[simp] theorem State.tick_sp : (s.tick).sp = s.sp := rfl
@[simp] theorem State.tick_stack : (s.tick).stack = s.stack := rfl
@[simp] theorem State.tick_dt : (s.tick).dt = tickByte s.dt := rfl
@[simp] theorem State.tick_st : (s.tick).st = tickByte s.st := rfl
@[simp] theorem State.tick_fb : (s.tick).fb = s.fb := rfl
@[simp] theorem State.tick_mem : (s.tick).mem = s.mem := rfl
@[simp] theorem State.tick_params : (s.tick).params = s.params := rfl
@[simp] theorem State.tick_reports : (s.tick).reports = s.reports := rfl
@[simp] theorem State.tick_script : (s.tick).script = s.script := rfl
@[simp] theorem State.tick_draw : (s.tick).draw = s.draw := rfl

/-! ### ticks -/

@[simp] theorem State.ticks_v (n : Nat) : (s.ticks n).v = s.v := rfl
@[simp] theorem State.ticks_i (n : Nat) : (s.ticks n).i = s.i := rfl
@[simp] theorem State.ticks_pc (n : Nat) : (s.ticks n).pc = s.pc := rfl
@[simp] theorem State.ticks_sp (n : Nat) : (s.ticks n).sp = s.sp := rfl
@[simp] theorem State.ticks_stack (n : Nat) : (s.ticks n).stack = s.stack := rfl
@[simp] theorem State.ticks_dt (n : Nat) : (s.ticks n).dt = afterTicks s.dt n := rfl
@[simp] theorem State.ticks_st (n : Nat) : (s.ticks n).st = afterTicks s.st n := rfl
@[simp] theorem State.ticks_fb (n : Nat) : (s.ticks n).fb = s.fb := rfl
@[simp] theorem State.ticks_mem (n : Nat) : (s.ticks n).mem = s.mem := rfl
@[simp] theorem State.ticks_params (n : Nat) : (s.ticks n).params = s.params := rfl
@[simp] theorem State.ticks_reports (n : Nat) : (s.ticks n).reports = s.reports := rfl
@[simp] theorem State.ticks_script (n : Nat) : (s.ticks n).script = s.script := rfl
@[simp] theorem State.ticks_draw (n : Nat) : (s.ticks n).draw = s.draw := rfl

/-! ### nextInput -/

@[simp] theorem State.nextInput_v : (s.nextInput).v = s.v := rfl
@[simp] theorem State.nextInput_i : (s.nextInput).i = s.i := rfl
@[simp] theorem State.nextInput_pc : (s.nextInput).pc = s.pc := rfl
@[simp] theorem State.nextInput_sp : (s.nextInput).sp = s.sp := rfl
@[simp] theorem State.nextInput_stack : (s.nextInput).stack = s.stack := rfl
@[simp] theorem State.nextInput_dt : (s.nextInput).dt = s.dt := rfl
@[simp] theorem State.nextInput_st : (s.nextInput).st = s.st := rfl
@[simp] theorem State.nextInput_fb : (s.nextInput).fb = s.fb := rfl
@[simp] theorem State.nextInput_mem : (s.nextInput).mem = s.mem := rfl
@[simp] theorem State.nextInput_params : (s.nextInput).params = s.params := rfl
@[simp] theorem State.nextInput_reports : (s.nextInput).reports = s.reports := rfl
@[simp] theorem State.nextInput_script : (s.nextInput).script = s.script.tail := rfl
@[simp] theorem State.nextInput_draw : (s.nextInput).draw = s.draw + 1 := rfl

/-! ### advanceI -/

@[simp] theorem State.advanceI_v (x : RegIx) : (s.advanceI x).v = s.v := by
  unfold State.advanceI; split <;> rfl
@[simp] theorem State.advanceI_pc (x : RegIx) : (s.advanceI x).pc = s.pc := by
  unfold State.advanceI; split <;> rfl
@[simp] theorem State.advanceI_sp (x : RegIx) : (s.advanceI x).sp = s.sp := by
  unfold State.advanceI; split <;> rfl
@[simp] theorem State.advanceI_stack (x : RegIx) : (s.advanceI x).stack = s.stack := by
  unfold State.advanceI; split <;> rfl
@[simp] theorem State.advanceI_dt (x : RegIx) : (s.advanceI x).dt = s.dt := by
  unfold State.advanceI; split <;> rfl
@[simp] theorem State.advanceI_st (x : RegIx) : (s.advanceI x).st = s.st := by
  unfold State.advanceI; split <;> rfl
@[simp] theorem State.advanceI_fb (x : RegIx) : (s.advanceI x).fb = s.fb := by
  unfold State.advanceI; split <;> rfl
@[simp] theorem State.advanceI_mem (x : RegIx) : (s.advanceI x).mem = s.mem := by
  unfold State.advanceI; split <;> rfl
@[simp] theorem State.advanceI_params (x : RegIx) : (s.advanceI x).params = s.params := by
  unfold State.advanceI; split <;> rfl
@[simp] theorem State.advanceI_reports (x : RegIx) : (s.advanceI x).reports = s.reports := by
  unfold State.advanceI; split <;> rfl
@[simp] theorem State.advanceI_script (x : RegIx) : (s.advanceI x).script = s.script := by
  unfold State.advanceI; split <;> rfl
@[simp] theorem State.advanceI_draw (x : RegIx) : (s.advanceI x).draw = s.draw := by
  unfold State.advanceI; split <;> rfl
@[simp] theorem State.advanceI_i (x : RegIx) :
    (s.advanceI x).i = if s.params.memInc then s.i + BitVec.ofNat 16 (x.val + 1) else s.i := by
  unfold State.advanceI; split <;> rfl

/-! ### What the updates leave of the sampled input -/

@[simp] theorem State.setV_input (x : RegIx) (b : Byte) : (s.setV x b).input = s.input := rfl
@[simp] theorem State.setPc_input (a : Word) : (s.setPc a).input = s.input := rfl
@[simp] theorem State.setI_input (a : Word) : (s.setI a).input = s.input := rfl
@[simp] theorem State.report_input (w : Word) : (s.report w).input = s.input := rfl
@[simp] theorem State.ticks_input (n : Nat) : (s.ticks n).input = s.input := rfl
@[simp] theorem State.tick_input : s.tick.input = s.input := rfl

/-- The sampled input depends on the script and the counter only. -/
theorem State.input_congr (s t : State) (hs : t.script = s.script) (hd : t.draw = s.draw) : t.input = s.input := by
  simp [State.input, hs, hd]

/-! ### What the updates leave of a register -/

@[simp] theorem State.getV_setI (a : Word) (r : RegIx) : (s.setI a).getV r = s.getV r := rfl
@[simp] theorem State.getV_setPc (a : Word) (r : RegIx) : (s.setPc a).getV r = s.getV r := rfl
@[simp] theorem State.getV_setDt (b : Byte) (r : RegIx) : (s.setDt b).getV r = s.getV r := rfl
@[simp] theorem State.getV_setSt (b : Byte) (r : RegIx) : (s.setSt b).getV r = s.getV r := rfl
@[simp] theorem State.getV_skipIf (c : Bool) (r : RegIx) : (s.skipIf c).getV r = s.getV r := rfl
@[simp] theorem State.getV_report (w : Word) (r : RegIx) : (s.report w).getV r = s.getV r := rfl
@[simp] theorem State.getV_ticks (n : Nat) (r : RegIx) : (s.ticks n).getV r = s.getV r := rfl
@[simp] theorem State.getV_nextInput (r : RegIx) : s.nextInput.getV r = s.getV r := rfl
@[simp] theorem State.getV_advanceI (x r : RegIx) : (s.advanceI x).getV r = s.getV r := by
  simp [State.getV]

end Sys2Proof.Machine
end

