-- ==== Sys2Proof/Laws/Memory.lean ====
section
/-! SUPPORT. Memory: reads after writes, the canonical form and its uniqueness, and what the multi-byte accesses
of R55 answer in range and out of range. -/

namespace Sys2Proof.Machine

/-! ### Reading after erasing, inserting, writing and placing -/

theorem Memory.read_erase (m : Memory) (a c : Nat) :
    (m.erase a).read c = if c = a then Memory.unlisted c else m.read c := by
  induction m with
  | nil => simp [Memory.erase, Memory.read]
  | cons kb m ih =>
    obtain ⟨k, b⟩ := kb
    simp only [Memory.erase, Memory.read]
    split_ifs <;> simp_all [Memory.read]

theorem Memory.read_insert_ne (m : Memory) (a c : Nat) (b : Byte) (h : c ≠ a) :
    (m.insert a b).read c = m.read c := by
  induction m with
  | nil => simp [Memory.insert, Memory.read, h]
  | cons kd m ih =>
    obtain ⟨k, d⟩ := kd
    simp only [Memory.insert]
    split_ifs <;> simp [Memory.read, h, ih]

theorem Memory.read_insert_erase (m : Memory) (a : Nat) (b : Byte) : ((m.erase a).insert a b).read a = b := by
  induction m with
  | nil => simp [Memory.erase, Memory.insert, Memory.read]
  | cons kd m ih =>
    obtain ⟨k, d⟩ := kd
    simp only [Memory.erase]
    split_ifs with h
    · exact ih
    · simp only [Memory.insert]
      split_ifs <;> simp [Memory.read, h, ih]

/-- A read after a write, of the same cell or of another (R55). It holds of every list, canonical or not. -/
theorem Memory.read_write (m : Memory) (a c : Nat) (b : Byte) :
    (m.write a b).read c = if c = a then b else m.read c := by
  unfold Memory.write
  split_ifs with hb hc hc
  · simp [Memory.read_erase, hc, hb]
  · simp [Memory.read_erase, hc]
  · subst hc; exact Memory.read_insert_erase m c b
  · rw [Memory.read_insert_ne _ _ _ _ hc, Memory.read_erase, if_neg hc]

/-- A read after placing bytes: inside the placed range, the byte placed; outside it, what was there. -/
theorem Memory.read_place (m : Memory) (a c : Nat) (bs : List Byte) :
    (m.place a bs).read c = if a ≤ c ∧ c < a + bs.length then bs.getD (c - a) 0x00#8 else m.read c := by
  induction bs generalizing m a with
  | nil => simp only [Memory.place, List.length_nil]; rw [if_neg (by omega)]
  | cons b bs ih =>
    simp only [Memory.place, ih, Memory.read_write, List.length_cons]
    by_cases h1 : c = a
    · subst h1; rw [if_neg (by omega), if_pos rfl, if_pos (by omega)]; simp
    · by_cases h2 : a + 1 ≤ c ∧ c < a + 1 + bs.length
      · rw [if_pos h2, if_pos (by omega)]
        obtain ⟨d, rfl⟩ : ∃ d, c = a + 1 + d := ⟨c - (a + 1), by omega⟩
        rw [show a + 1 + d - a = d + 1 by omega, show a + 1 + d - (a + 1) = d by omega]; rfl
      · rw [if_neg h2, if_neg h1, if_neg (by omega)]

/-! ### The canonical form -/

theorem Memory.wfFrom_cons (lo k : Nat) (b : Byte) (m : Memory) :
    Memory.wfFrom lo ((k, b) :: m) = true ↔
      lo ≤ k ∧ k < 4096 ∧ b ≠ Memory.unlisted k ∧ Memory.wfFrom (k + 1) m = true := by
  simp only [Memory.wfFrom, Bool.and_eq_true, decide_eq_true_eq, bne_iff_ne, and_assoc]; rfl

theorem Memory.wfFrom_mono {lo lo' : Nat} (m : Memory) (h : lo' ≤ lo) (hm : Memory.wfFrom lo m = true) :
    Memory.wfFrom lo' m = true := by
  cases m with
  | nil => rfl
  | cons kb m =>
    rw [Memory.wfFrom_cons] at *
    exact ⟨h.trans hm.1, hm.2⟩

theorem Memory.wfFrom_erase (lo a : Nat) (m : Memory) (hm : Memory.wfFrom lo m = true) :
    Memory.wfFrom lo (m.erase a) = true := by
  induction m generalizing lo with
  | nil => rfl
  | cons kb m ih =>
    obtain ⟨k, b⟩ := kb
    rw [Memory.wfFrom_cons] at hm
    simp only [Memory.erase]
    split_ifs
    · exact Memory.wfFrom_mono _ (by omega) (ih _ hm.2.2.2)
    · rw [Memory.wfFrom_cons]; exact ⟨hm.1, hm.2.1, hm.2.2.1, ih _ hm.2.2.2⟩

/-- A cell below the bound of a canonical list reads as unlisted. -/
theorem Memory.read_of_lt (lo c : Nat) (m : Memory) (hm : Memory.wfFrom lo m = true) (h : c < lo) :
    m.read c = Memory.unlisted c := by
  induction m generalizing lo with
  | nil => rfl
  | cons kb m ih =>
    obtain ⟨k, b⟩ := kb
    rw [Memory.wfFrom_cons] at hm
    rw [Memory.read, if_neg (by omega), ih _ hm.2.2.2 (by omega)]

theorem Memory.wfFrom_insert_erase (lo a : Nat) (b : Byte) (m : Memory) (hm : Memory.wfFrom lo m = true)
    (hlo : lo ≤ a) (ha : a < 4096) (hb : b ≠ Memory.unlisted a) :
    Memory.wfFrom lo ((m.erase a).insert a b) = true := by
  induction m generalizing lo with
  | nil => exact (Memory.wfFrom_cons ..).mpr ⟨hlo, ha, hb, rfl⟩
  | cons kd m ih =>
    obtain ⟨k, d⟩ := kd
    rw [Memory.wfFrom_cons] at hm
    simp only [Memory.erase]
    split_ifs with h
    · exact ih lo (Memory.wfFrom_mono _ (by omega) hm.2.2.2) hlo
    · simp only [Memory.insert]
      split_ifs with hk
      · rw [Memory.wfFrom_cons, Memory.wfFrom_cons]
        exact ⟨hlo, ha, hb, by omega, hm.2.1, hm.2.2.1, Memory.wfFrom_erase _ _ _ hm.2.2.2⟩
      · rw [Memory.wfFrom_cons]
        exact ⟨hm.1, hm.2.1, hm.2.2.1, ih _ hm.2.2.2 (by omega)⟩

/-- A store in range keeps the canonical form. -/
theorem Memory.wf_write (m : Memory) (a : Nat) (b : Byte) (hm : m.wf = true) (ha : a < 4096) :
    (m.write a b).wf = true := by
  unfold Memory.write Memory.wf
  split_ifs with hb
  · exact Memory.wfFrom_erase _ _ _ hm
  · exact Memory.wfFrom_insert_erase _ _ _ _ hm (Nat.zero_le _) ha hb

/-- Placing bytes in range keeps the canonical form. -/
theorem Memory.wf_place (m : Memory) (a : Nat) (bs : List Byte) (hm : m.wf = true) (ha : a + bs.length ≤ 4096) :
    (m.place a bs).wf = true := by
  induction bs generalizing m a with
  | nil => exact hm
  | cons b bs ih =>
    simp only [List.length_cons] at ha
    exact ih _ _ (Memory.wf_write _ _ _ hm (by omega)) (by omega)

/-- Reset memory has the canonical form. -/
theorem Memory.wf_reset : State.reset.mem.wf = true := rfl

/-! ### The checked accesses (R8, R56, R57) -/

variable (s : State)

theorem State.readByte_ok (a : Nat) (h : a ≤ 0xFFF) : s.readByte a = .ok (s.mem.read a) := by
  simp [State.readByte, h]

theorem State.readByte_error (a : Nat) (h : 0xFFF < a) : s.readByte a = .error (.outOfBoundsAccess a) := by
  simp [State.readByte, Nat.not_le.mpr h]

/-- The fetch in range: the byte at the lower address on top (R53). -/
theorem State.readWord_ok (a : Nat) (h : a ≤ 0xFFE) :
    s.readWord a = .ok (wordOfBytes (s.mem.read a) (s.mem.read (a + 1))) := by
  simp [State.readWord, s.readByte_ok a (by omega), s.readByte_ok (a + 1) (by omega)]

/-- The fetch out of range: the first address above 0xFFF (R57, R227). -/
theorem State.readWord_error (a : Nat) (h : 0xFFE < a) :
    s.readWord a = .error (.outOfBoundsAccess (max a 0x1000)) := by
  unfold State.readWord
  by_cases ha : a ≤ 0xFFF
  · rw [s.readByte_ok a ha]
    simp only [s.readByte_error (a + 1) (by omega)]
    congr 2; omega
  · rw [s.readByte_error a (by omega)]
    simp only; congr 2; omega

theorem State.readBytes_ok (a n : Nat) (h : a + n ≤ 0x1000) :
    s.readBytes a n = .ok ((List.range n).map fun k => s.mem.read (a + k)) := by
  induction n generalizing a with
  | zero => rfl
  | succ n ih =>
    simp only [State.readBytes, s.readByte_ok a (by omega), ih (a + 1) (by omega), List.range_succ_eq_map,
      List.map_cons, List.map_map, Nat.add_zero]
    refine congrArg _ (congrArg _ (List.map_congr_left fun k _ => ?_))
    simp only [Function.comp]; congr 1; omega

theorem State.readBytes_error (a n : Nat) (hn : 0 < n) (h : 0x1000 < a + n) :
    s.readBytes a n = .error (.outOfBoundsAccess (max a 0x1000)) := by
  induction n generalizing a with
  | zero => omega
  | succ n ih =>
    by_cases ha : a ≤ 0xFFF
    · simp only [State.readBytes, s.readByte_ok a ha]
      rw [ih (a + 1) (by omega) (by omega)]
      simp only; congr 2; omega
    · simp only [State.readBytes, s.readByte_error a (by omega)]
      congr 2; omega

/-- The stores of one instruction, all in range: the bytes placed, and nothing else changed. -/
theorem State.writeBytes_ok (a : Nat) (bs : List Byte) (h : a + bs.length ≤ 0x1000) :
    s.writeBytes a bs = .ok { s with mem := s.mem.place a bs } := by
  induction bs generalizing s a with
  | nil => rfl
  | cons b bs ih =>
    simp only [List.length_cons] at h
    simp only [State.writeBytes, State.writeByte, if_pos (show a ≤ 0xFFF by omega)]
    rw [ih _ (a + 1) (by omega)]; rfl

/-- The stores of one instruction, one of them out of range: the first such address (R57, R167). -/
theorem State.writeBytes_error (a : Nat) (bs : List Byte) (hn : bs ≠ []) (h : 0x1000 < a + bs.length) :
    s.writeBytes a bs = .error (.outOfBoundsAccess (max a 0x1000)) := by
  induction bs generalizing s a with
  | nil => exact absurd rfl hn
  | cons b bs ih =>
    simp only [List.length_cons] at h
    by_cases ha : a ≤ 0xFFF
    · simp only [State.writeBytes, State.writeByte, if_pos ha]
      have hbs : bs ≠ [] := by rintro rfl; simp at h; omega
      rw [ih _ (a + 1) hbs (by omega)]
      congr 2; omega
    · simp only [State.writeBytes, State.writeByte, if_neg ha]
      congr 2; omega

end Sys2Proof.Machine
end

