-- ==== Sys2Proof/Laws/Display.lean ====
section
/-! SUPPORT. The framebuffer engine: what one cell holds after a row blit, when the blit collides, and the same
for the rows of a sprite. -/

namespace Sys2Proof.Machine

theorem Framebuffer.lit_flip (fb : Framebuffer) (y r : Fin 32) (x c : Fin 64) :
    Framebuffer.lit (Framebuffer.flip fb y x) r c = (Framebuffer.lit fb r c ^^ decide (r = y ∧ c = x)) := by
  simp only [Framebuffer.lit, Framebuffer.flip, Vector.getElem_set]
  by_cases hr : r = y
  · subst hr
    by_cases hc : c = x
    · simp [hc]
    · simp [hc, Fin.val_ne_of_ne hc]
  · simp [hr, Fin.ext_iff, Ne.symm (Fin.val_ne_of_ne hr)]

/-- Two framebuffers with the same cells are equal. -/
theorem Framebuffer.ext (fb fb' : Framebuffer) (h : ∀ r c, Framebuffer.lit fb r c = Framebuffer.lit fb' r c) :
    fb = fb' := by
  refine Vector.ext fun r hr => BitVec.eq_of_getLsbD_eq fun c hc => ?_
  exact h ⟨r, hr⟩ ⟨c, hc⟩

/-- Whether one of the pixel positions `js` of a row covers the column `c` with a 1 bit (R181). -/
def rowHits (x0 : Nat) (bits : Byte) (js : List Nat) (c : Fin 64) : Bool :=
  js.any fun j => bits.getLsbD (7 - j) && decide (c = wrapCol (x0 + j))

theorem wrapCol_inj {x0 j k : Nat} (hj : j < 64) (hk : k < 64) (h : wrapCol (x0 + j) = wrapCol (x0 + k)) : j = k := by
  simp only [wrapCol, Fin.ext_iff, Fin.val_ofNat] at h; omega

theorem lit_drawPixels (y0 : Fin 32) (x0 : Nat) (bits : Byte) (js : List Nat) (hn : js.Nodup) (hj : ∀ j ∈ js, j < 64)
    (fb : Framebuffer) (coll : Bool) (r : Fin 32) (c : Fin 64) :
    Framebuffer.lit (drawPixels y0 x0 bits js (fb, coll)).1 r c
      = (Framebuffer.lit fb r c ^^ (decide (r = y0) && rowHits x0 bits js c)) := by
  induction js generalizing fb coll with
  | nil => simp [drawPixels, rowHits]
  | cons j js ih =>
    obtain ⟨hnj, hn'⟩ := List.nodup_cons.mp hn
    have hj' : ∀ k ∈ js, k < 64 := fun k hk => hj k (List.mem_cons_of_mem _ hk)
    by_cases hb : bits.getLsbD (7 - j) = true
    · simp only [drawPixels, hb, if_true, ih hn' hj', Framebuffer.lit_flip]
      by_cases hc : c = wrapCol (x0 + j)
      · have hno : rowHits x0 bits js c = false := by
          simp only [rowHits, List.any_eq_false, Bool.and_eq_true, decide_eq_true_eq, not_and]
          intro k hk _ hck
          exact hnj (wrapCol_inj (hj j List.mem_cons_self) (hj' k hk) (hc ▸ hck) ▸ hk)
        have hyes : rowHits x0 bits (j :: js) c = true := by simp [rowHits, hb, hc]
        rw [hno, hyes]; simp [hc]
      · have : rowHits x0 bits (j :: js) c = rowHits x0 bits js c := by simp [rowHits, hc]
        simp [this, hc]
    · have : rowHits x0 bits (j :: js) c = rowHits x0 bits js c := by simp [rowHits, hb]
      simp [drawPixels, hb, ih hn' hj', this]

theorem coll_drawPixels (y0 : Fin 32) (x0 : Nat) (bits : Byte) (js : List Nat) (hn : js.Nodup) (hj : ∀ j ∈ js, j < 64)
    (fb : Framebuffer) (coll : Bool) :
    (drawPixels y0 x0 bits js (fb, coll)).2
      = (coll || js.any fun j => bits.getLsbD (7 - j) && Framebuffer.lit fb y0 (wrapCol (x0 + j))) := by
  induction js generalizing fb coll with
  | nil => simp [drawPixels]
  | cons j js ih =>
    obtain ⟨hnj, hn'⟩ := List.nodup_cons.mp hn
    have hj' : ∀ k ∈ js, k < 64 := fun k hk => hj k (List.mem_cons_of_mem _ hk)
    by_cases hb : bits.getLsbD (7 - j) = true
    · simp only [drawPixels, hb, if_true, ih hn' hj', List.any_cons, Bool.true_and, Bool.or_assoc]
      congr 2
      rw [Bool.eq_iff_iff, List.any_eq_true, List.any_eq_true]
      refine exists_congr fun k => and_congr_right fun hk => ?_
      have hne : wrapCol (x0 + k) ≠ wrapCol (x0 + j) := fun h =>
        hnj (wrapCol_inj (hj' k hk) (hj j List.mem_cons_self) h ▸ hk)
      simp [Framebuffer.lit_flip, hne]
    · simp [drawPixels, hb, ih hn' hj']

/-- The eight pixel positions of a row (R181). -/
def pixels : List Nat := [0, 1, 2, 3, 4, 5, 6, 7]

/-- Whether `DrawRow(x, y, bits)` covers the cell in row `r`, column `c` with a 1 bit. -/
def rowCovers (x y : Nat) (bits : Byte) (r : Fin 32) (c : Fin 64) : Bool :=
  decide (r = wrapRow y) && rowHits (x % 64) bits pixels c

theorem rowCovers_iff (x y : Nat) (bits : Byte) (r : Fin 32) (c : Fin 64) :
    rowCovers x y bits r c = true ↔
      r.val = y % 32 ∧ ∃ j, j < 8 ∧ bits.getLsbD (7 - j) = true ∧ c.val = (x + j) % 64 := by
  have hmem : ∀ j, j ∈ pixels ↔ j < 8 := fun j => by simp [pixels]; omega
  simp only [rowCovers, rowHits, wrapRow, wrapCol, Bool.and_eq_true, decide_eq_true_eq, List.any_eq_true, Fin.ext_iff,
    Fin.val_ofNat, hmem, Nat.mod_add_mod]

/-- After a row blit a cell is toggled exactly if the row covers it. -/
theorem lit_drawRow (fb : Framebuffer) (x y : Nat) (bits : Byte) (r : Fin 32) (c : Fin 64) :
    Framebuffer.lit (drawRow fb x y bits).1 r c = (Framebuffer.lit fb r c ^^ rowCovers x y bits r c) :=
  lit_drawPixels _ _ _ pixels (by decide) (by decide) _ _ _ _

/-- A row blit collides exactly if it covers a lit cell. -/
theorem coll_drawRow (fb : Framebuffer) (x y : Nat) (bits : Byte) :
    (drawRow fb x y bits).2 = true ↔ ∃ r c, Framebuffer.lit fb r c = true ∧ rowCovers x y bits r c = true := by
  have h := coll_drawPixels (wrapRow y) (x % 64) bits pixels (by decide) (by decide) fb false
  rw [show (drawRow fb x y bits).2 = _ from h]
  simp only [Bool.false_or, List.any_eq_true, Bool.and_eq_true]
  constructor
  · rintro ⟨j, hj, hb, hl⟩
    refine ⟨_, _, hl, ?_⟩
    simp only [rowCovers, rowHits, decide_true, Bool.true_and, List.any_eq_true, Bool.and_eq_true, decide_eq_true_eq]
    exact ⟨j, hj, hb, rfl⟩
  · rintro ⟨r, c, hl, hc⟩
    simp only [rowCovers, rowHits, List.any_eq_true, Bool.and_eq_true, decide_eq_true_eq] at hc
    obtain ⟨rfl, j, hj, hb, rfl⟩ := hc
    exact ⟨j, hj, hb, hl⟩

/-! ### The rows of a sprite (R183) -/

variable (s : State)

/-- Whether one of the `n` rows of a sprite, from row number `k0` on, covers a cell. -/
def State.spriteCovers (s : State) (x y k0 n : Nat) (r : Fin 32) (c : Fin 64) : Bool :=
  (List.range n).any fun k => rowCovers x (y + (k0 + k)) (s.mem.read (s.base + (k0 + k))) r c

theorem State.spriteCovers_succ (x y k0 n : Nat) (r : Fin 32) (c : Fin 64) :
    s.spriteCovers x y k0 (n + 1) r c
      = (rowCovers x (y + k0) (s.mem.read (s.base + k0)) r c || s.spriteCovers x y (k0 + 1) n r c) := by
  simp only [State.spriteCovers, List.range_succ_eq_map, List.any_cons, List.any_map, Nat.add_zero]
  congr 2; funext k; simp only [Function.comp]; congr 2 <;> omega

/-- The row blits of a sprite land on distinct rows, so later rows neither toggle nor read what an earlier one did. -/
theorem State.spriteCovers_of_row (x y k0 n : Nat) (hn : n ≤ 31) (r : Fin 32) (c : Fin 64) (h : r = wrapRow (y + k0)) :
    s.spriteCovers x y (k0 + 1) n r c = false := by
  simp only [State.spriteCovers, List.any_eq_false, List.mem_range]
  intro k hk
  have : ¬ r = wrapRow (y + (k0 + 1 + k)) := by
    subst h; simp only [wrapRow, Fin.ext_iff, Fin.val_ofNat]; omega
  simp [rowCovers, this]

/-- All rows in range: the answer's cells and its collision. -/
theorem State.drawRows_ok (x y n k0 : Nat) (hn : n ≤ 16) (fb : Framebuffer) (coll : Bool)
    (hb : n = 0 ∨ s.base + (k0 + n) ≤ 0x1000) :
    ∃ fb' coll', s.drawRows x y n k0 (fb, coll) = .ok (fb', coll')
      ∧ (∀ r c, Framebuffer.lit fb' r c = (Framebuffer.lit fb r c ^^ s.spriteCovers x y k0 n r c))
      ∧ (coll' = true ↔ coll = true ∨
          ∃ r c, Framebuffer.lit fb r c = true ∧ s.spriteCovers x y k0 n r c = true) := by
  induction n generalizing k0 fb coll with
  | zero => exact ⟨fb, coll, rfl, by simp [State.spriteCovers], by simp [State.spriteCovers]⟩
  | succ n ih =>
    have hread : s.readByte (s.i.toNat + k0) = .ok (s.mem.read (s.base + k0)) :=
      s.readByte_ok _ (by unfold State.base at hb; omega)
    obtain ⟨fb', coll', hd, hl, hc⟩ := ih (k0 + 1) (by omega) (drawRow fb x (y + k0) (s.mem.read (s.base + k0))).1
      (coll || (drawRow fb x (y + k0) (s.mem.read (s.base + k0))).2) (by omega)
    refine ⟨fb', coll', ?_, ?_, ?_⟩
    · simp only [State.drawRows, hread]; exact hd
    · intro r c
      rw [hl, lit_drawRow, State.spriteCovers_succ, Bool.xor_assoc]
      congr 1
      by_cases hr : r = wrapRow (y + k0)
      · simp [s.spriteCovers_of_row x y k0 n (by omega) r c hr]
      · simp [rowCovers, hr]
    · rw [hc]
      simp only [Bool.or_eq_true, coll_drawRow, lit_drawRow, State.spriteCovers_succ]
      constructor
      · rintro ((h | ⟨r, c, h1, h2⟩) | ⟨r, c, h1, h2⟩)
        · exact .inl h
        · exact .inr ⟨r, c, h1, .inl h2⟩
        · refine .inr ⟨r, c, ?_, .inr h2⟩
          by_cases hr : r = wrapRow (y + k0)
          · rw [s.spriteCovers_of_row x y k0 n (by omega) r c hr] at h2; cases h2
          · simpa [rowCovers, hr] using h1
      · rintro (h | ⟨r, c, h1, h2 | h2⟩)
        · exact .inl (.inl h)
        · exact .inl (.inr ⟨r, c, h1, h2⟩)
        · refine .inr ⟨r, c, ?_, h2⟩
          by_cases hr : r = wrapRow (y + k0)
          · rw [s.spriteCovers_of_row x y k0 n (by omega) r c hr] at h2; cases h2
          · simpa [rowCovers, hr] using h1

/-- A row out of range: the first such address (R57, R183). -/
theorem State.drawRows_error (x y n k0 : Nat) (hn : 0 < n) (fb : Framebuffer) (coll : Bool)
    (hb : 0x1000 < s.base + (k0 + n)) :
    s.drawRows x y n k0 (fb, coll) = .error (.outOfBoundsAccess (max (s.base + k0) 0x1000)) := by
  induction n generalizing k0 fb coll with
  | zero => omega
  | succ n ih =>
    unfold State.base at *
    by_cases ha : s.i.toNat + k0 ≤ 0xFFF
    · simp only [State.drawRows, s.readByte_ok _ ha]
      rw [ih (k0 + 1) (by omega) _ _ (by omega)]
      congr 2; omega
    · simp only [State.drawRows, s.readByte_error _ (show 0xFFF < s.i.toNat + k0 by omega)]
      congr 2; omega

end Sys2Proof.Machine
end

