-- ==== Sys2Proof/Laws/Registers.lean ====
section
/-! SUPPORT. The register file, the flag byte, the stack and the key choice: what each operation can do. -/

namespace Sys2Proof.Machine

variable (s : State)

/-! ### Registers -/

/-- A read after a write, of the same register or of another. -/
theorem State.getV_setV (x r : RegIx) (b : Byte) : (s.setV x b).getV r = if r = x then b else s.getV r := by
  simp only [State.getV, State.setV, Vector.getElem_set, eq_comm (a := r), Fin.ext_iff]

@[simp] theorem State.getV_setV_self (x : RegIx) (b : Byte) : (s.setV x b).getV x = b := by
  simp [State.getV_setV]

@[simp] theorem State.getV_setV_ne {x r : RegIx} (b : Byte) (h : r ≠ x) : (s.setV x b).getV r = s.getV r := by
  simp [State.getV_setV, h]

/-- The flag is written last: it wins in register 15 (R22). -/
theorem State.getV_setFlagged (x r : RegIx) (b : Byte) (f : Bool) :
    (s.setFlagged x b f).getV r = if r = 15 then flagByte f else if r = x then b else s.getV r := by
  simp [State.setFlagged, State.getV_setV]

/-- register-load replaces exactly the registers below the number of bytes (R165). -/
theorem State.getV_loadV (bs : List Byte) (r : RegIx) : (s.loadV bs).getV r = bs.getD r.val (s.getV r) := by
  simp [State.getV, State.loadV]

@[simp] theorem State.length_firstV (x : RegIx) : (s.firstV x).length = x.val + 1 := by
  have := x.isLt
  simp only [State.firstV, List.length_take, Vector.length_toList]; omega

/-- The `k`-th byte register-dump moves is `V[k]` (R164). -/
theorem State.getD_firstV (x k : RegIx) (d : Byte) (h : k.val ≤ x.val) : (s.firstV x).getD k.val d = s.getV k := by
  simp [State.firstV, State.getV, List.getD_eq_getElem?_getD, Nat.lt_succ_of_le h]

/-- Two states that agree on every register have the same register file. -/
theorem State.v_ext (s t : State) (h : ∀ r, s.getV r = t.getV r) : s.v = t.v :=
  Vector.ext fun k hk => h ⟨k, hk⟩

/-! ### Flags -/

@[simp] theorem flagByte_true : flagByte true = 0x01#8 := rfl
@[simp] theorem flagByte_false : flagByte false = 0x00#8 := rfl

/-- The flag of add-registers is bit 8 of the sum. -/
theorem toNat_flagByte_carry (a b : Byte) : (flagByte (carry a b)).toNat = (a.toNat + b.toNat) / 256 := by
  have ha := a.isLt; have hb := b.isLt
  unfold carry
  by_cases h : 255 < a.toNat + b.toNat
  · simp [h]; omega
  · simp [h]; omega

/-! ### The stack (R26) -/

theorem State.push_ok (a : Word) (h : s.sp.val < 16) :
    s.push a = .ok { s with stack := s.stack.set s.sp.val a, sp := ⟨s.sp.val + 1, by omega⟩ } := by
  simp [State.push, h]

theorem State.push_full (a : Word) (h : s.sp.val = 16) : s.push a = .error .stackOverflow := by
  simp [State.push, h]

theorem State.pop_ok (h : 0 < s.sp.val) :
    s.pop = .ok (s.stack[s.sp.val - 1], { s with sp := ⟨s.sp.val - 1, by omega⟩ }) := by
  simp [State.pop, h]

theorem State.pop_empty (h : s.sp.val = 0) : s.pop = .error .stackUnderflow := by
  simp [State.pop, h]

/-! ### The choice of a pressed key (R203) -/

/-- A key the search answers is pressed. -/
theorem keyPressed_of_searchKey (keys : BitVec 16) (n : Nat) (start k : Fin 16)
    (h : searchKey keys n start = some k) : keyPressed keys k = true := by
  induction n generalizing start with
  | zero => simp [searchKey] at h
  | succ n ih =>
    simp only [searchKey] at h
    split at h
    · next hp => cases h; exact hp
    · exact ih _ h

/-- The search starts at a pressed key: that key is the answer. -/
theorem searchKey_of_pressed (keys : BitVec 16) (n : Nat) (k : Fin 16) (h : keyPressed keys k = true) :
    searchKey keys (n + 1) k = some k := by
  simp [searchKey, h]

/-- The search fails only if none of the keys it looks at is pressed. -/
theorem not_keyPressed_of_searchKey_none (keys : BitVec 16) (n : Nat) (start : Fin 16)
    (h : searchKey keys n start = none) (j : Nat) (hj : j < n) : keyPressed keys (start + Fin.ofNat 16 j) = false := by
  induction n generalizing start j with
  | zero => omega
  | succ n ih =>
    simp only [searchKey] at h
    split at h
    · cases h
    · next hp =>
      cases j with
      | zero => simpa using hp
      | succ j =>
        have := ih (start + 1) h j (by omega)
        rw [← this]; congr 1
        ext; simp [Fin.val_add]; omega

/-- Looking at all 16 keys, the search fails exactly if no key is pressed. -/
theorem searchKey_all_none (keys : BitVec 16) (start : Fin 16) : searchKey keys 16 start = none ↔ keys = 0#16 := by
  constructor
  · intro h
    ext k hk
    have hn := not_keyPressed_of_searchKey_none keys 16 start h ((k + 16 - start.val) % 16) (Nat.mod_lt _ (by decide))
    have hs := start.isLt
    have hk' : start + Fin.ofNat 16 ((k + 16 - start.val) % 16) = ⟨k, hk⟩ := by
      ext; simp [Fin.val_add]; omega
    rw [hk'] at hn
    simpa [keyPressed, BitVec.getLsbD_eq_getElem hk] using hn
  · rintro rfl
    cases hs : searchKey 0#16 16 start with
    | none => rfl
    | some k => simpa [keyPressed] using keyPressed_of_searchKey _ _ _ _ hs

end Sys2Proof.Machine
end

