-- ==== Sys2Proof/Laws/Exec.lean ====
section
/-! SUPPORT. The six meanings that can fault, each in both cases: what the next state is and when the fault comes.
The other 28 meanings answer a next state on every path and unfold to it. -/

namespace Sys2Proof.Machine

variable (s : State)

/-! ### return and call (R110, R112) -/

theorem execRet_ok (h : 0 < s.sp.val) :
    execRet s = .next { s with pc := s.stack[s.sp.val - 1], sp := ⟨s.sp.val - 1, by omega⟩ } := by
  rw [execRet, s.pop_ok h]; rfl

theorem execRet_empty (h : s.sp.val = 0) : execRet s = .fault .stackUnderflow := by
  rw [execRet, s.pop_empty h]; rfl

theorem execCall_ok (nnn : Addr12) (h : s.sp.val < 16) :
    execCall nnn s = .next { s with
      stack := s.stack.set s.sp.val s.pc, sp := ⟨s.sp.val + 1, by omega⟩, pc := addrWord nnn } := by
  rw [execCall, s.push_ok _ h]; rfl

theorem execCall_full (nnn : Addr12) (h : s.sp.val = 16) : execCall nnn s = .fault .stackOverflow := by
  rw [execCall, s.push_full _ h]; rfl

/-! ### draw-sprite (R183) -/

theorem execDrw_ok (x y : RegIx) (n : Nibble) (h : n.toNat = 0 ∨ s.base + n.toNat ≤ 0x1000) :
    ∃ fb coll, execDrw x y n s = .next ({ s with fb := fb }.setV 15 (flagByte coll))
      ∧ (∀ r c, Framebuffer.lit fb r c
          = (Framebuffer.lit s.fb r c ^^ s.spriteCovers (s.getV x).toNat (s.getV y).toNat 0 n.toNat r c))
      ∧ (coll = true ↔ ∃ r c, Framebuffer.lit s.fb r c = true
          ∧ s.spriteCovers (s.getV x).toNat (s.getV y).toNat 0 n.toNat r c = true) := by
  have hn := n.isLt
  obtain ⟨fb, coll, hd, hl, hc⟩ := s.drawRows_ok (s.getV x).toNat (s.getV y).toNat n.toNat 0 (by omega) s.fb false
    (by omega)
  exact ⟨fb, coll, by rw [execDrw, hd], hl, by simpa using hc⟩

theorem execDrw_error (x y : RegIx) (n : Nibble) (hn : 0 < n.toNat) (h : 0x1000 < s.base + n.toNat) :
    execDrw x y n s = .fault (.outOfBoundsAccess (max s.base 0x1000)) := by
  rw [execDrw, s.drawRows_error _ _ _ 0 hn _ _ (by omega)]; rfl

/-! ### The memory transfers (R163, R164, R165) -/

theorem execLdBVx_ok (x : RegIx) (h : s.base + 3 ≤ 0x1000) :
    execLdBVx x s = .next { s with mem := s.mem.place s.base (bcdDigits (s.getV x)) } := by
  rw [execLdBVx, s.writeBytes_ok s.base (bcdDigits (s.getV x)) h]

theorem execLdBVx_error (x : RegIx) (h : 0x1000 < s.base + 3) :
    execLdBVx x s = .fault (.outOfBoundsAccess (max s.base 0x1000)) := by
  rw [execLdBVx, s.writeBytes_error s.base (bcdDigits (s.getV x)) (List.cons_ne_nil _ _) h]; rfl

theorem execLdMemVx_ok (x : RegIx) (h : s.base + (x.val + 1) ≤ 0x1000) :
    execLdMemVx x s = .next ({ s with mem := s.mem.place s.base (s.firstV x) }.advanceI x) := by
  rw [execLdMemVx, s.writeBytes_ok s.base (s.firstV x) (by rw [s.length_firstV]; exact h)]

theorem execLdMemVx_error (x : RegIx) (h : 0x1000 < s.base + (x.val + 1)) :
    execLdMemVx x s = .fault (.outOfBoundsAccess (max s.base 0x1000)) := by
  have hne : s.firstV x ≠ [] := List.ne_nil_of_length_pos (by rw [s.length_firstV]; omega)
  rw [execLdMemVx, s.writeBytes_error s.base (s.firstV x) hne (by rw [s.length_firstV]; exact h)]; rfl

theorem execLdVxMem_ok (x : RegIx) (h : s.base + (x.val + 1) ≤ 0x1000) :
    execLdVxMem x s
      = .next ((s.loadV ((List.range (x.val + 1)).map fun k => s.mem.read (s.base + k))).advanceI x) := by
  rw [execLdVxMem, s.readBytes_ok _ _ h]

theorem execLdVxMem_error (x : RegIx) (h : 0x1000 < s.base + (x.val + 1)) :
    execLdVxMem x s = .fault (.outOfBoundsAccess (max s.base 0x1000)) := by
  rw [execLdVxMem, s.readBytes_error _ _ (Nat.succ_pos _) h]; rfl

end Sys2Proof.Machine
end

