-- ==== Sys2Proof/Laws/PerInstr.lean ====
section
/-! SUPPORT. Statements about every instruction as syntax, one lemma per constructor. The family TableRow: an encoded
instruction matches the mask and pattern of its row of spec/opcode_table.json. -/

namespace Sys2Proof.Laws.TableRow

/-- The word of an instruction, masked, is the pattern of its row (R82). -/
def Statement (i : Instr) : Prop := encode i &&& i.row.1 = i.row.2

theorem cls : Statement .cls := rfl
theorem ret : Statement .ret := rfl
theorem jp (nnn : Addr12) : Statement (.jp nnn) := encNNN_and_F000 _ _
theorem call (nnn : Addr12) : Statement (.call nnn) := encNNN_and_F000 _ _
theorem seImm (x : RegIx) (nn : Byte) : Statement (.seImm x nn) := encXNN_and_F000 _ _ _
theorem sneImm (x : RegIx) (nn : Byte) : Statement (.sneImm x nn) := encXNN_and_F000 _ _ _
theorem seReg (x : RegIx) (y : RegIx) (n : Nibble) : Statement (.seReg x y n) := encXYN_and_F000 _ _ _ _
theorem ldImm (x : RegIx) (nn : Byte) : Statement (.ldImm x nn) := encXNN_and_F000 _ _ _
theorem addImm (x : RegIx) (nn : Byte) : Statement (.addImm x nn) := encXNN_and_F000 _ _ _
theorem ldReg (x : RegIx) (y : RegIx) : Statement (.ldReg x y) := encXYN_and_F00F _ _ _ _
theorem orReg (x : RegIx) (y : RegIx) : Statement (.orReg x y) := encXYN_and_F00F _ _ _ _
theorem andReg (x : RegIx) (y : RegIx) : Statement (.andReg x y) := encXYN_and_F00F _ _ _ _
theorem xorReg (x : RegIx) (y : RegIx) : Statement (.xorReg x y) := encXYN_and_F00F _ _ _ _
theorem addReg (x : RegIx) (y : RegIx) : Statement (.addReg x y) := encXYN_and_F00F _ _ _ _
theorem subReg (x : RegIx) (y : RegIx) : Statement (.subReg x y) := encXYN_and_F00F _ _ _ _
theorem shr (x : RegIx) (y : RegIx) : Statement (.shr x y) := encXYN_and_F00F _ _ _ _
theorem subnReg (x : RegIx) (y : RegIx) : Statement (.subnReg x y) := encXYN_and_F00F _ _ _ _
theorem shl (x : RegIx) (y : RegIx) : Statement (.shl x y) := encXYN_and_F00F _ _ _ _
theorem sneReg (x : RegIx) (y : RegIx) (n : Nibble) : Statement (.sneReg x y n) := encXYN_and_F000 _ _ _ _
theorem ldI (nnn : Addr12) : Statement (.ldI nnn) := encNNN_and_F000 _ _
theorem jpV0 (nnn : Addr12) : Statement (.jpV0 nnn) := encNNN_and_F000 _ _
theorem rnd (x : RegIx) (nn : Byte) : Statement (.rnd x nn) := encXNN_and_F000 _ _ _
theorem drw (x : RegIx) (y : RegIx) (n : Nibble) : Statement (.drw x y n) := encXYN_and_F000 _ _ _ _
theorem skp (x : RegIx) : Statement (.skp x) := encXNN_and_F0FF _ _ _
theorem sknp (x : RegIx) : Statement (.sknp x) := encXNN_and_F0FF _ _ _
theorem ldVxDt (x : RegIx) : Statement (.ldVxDt x) := encXNN_and_F0FF _ _ _
theorem ldVxK (x : RegIx) : Statement (.ldVxK x) := encXNN_and_F0FF _ _ _
theorem ldDtVx (x : RegIx) : Statement (.ldDtVx x) := encXNN_and_F0FF _ _ _
theorem ldStVx (x : RegIx) : Statement (.ldStVx x) := encXNN_and_F0FF _ _ _
theorem addIVx (x : RegIx) : Statement (.addIVx x) := encXNN_and_F0FF _ _ _
theorem ldFVx (x : RegIx) : Statement (.ldFVx x) := encXNN_and_F0FF _ _ _
theorem ldBVx (x : RegIx) : Statement (.ldBVx x) := encXNN_and_F0FF _ _ _
theorem ldMemVx (x : RegIx) : Statement (.ldMemVx x) := encXNN_and_F0FF _ _ _
theorem ldVxMem (x : RegIx) : Statement (.ldVxMem x) := encXNN_and_F0FF _ _ _

end Sys2Proof.Laws.TableRow
end

