-- ==== Sys2Proof/Laws/Timers.lean ====
section
/-! SUPPORT. The timer decrementer: one tick, many ticks, and that the second is the first iterated (R233). -/

namespace Sys2Proof.Machine

@[simp] theorem afterTicks_zero_left (n : Nat) : afterTicks 0x00#8 n = 0x00#8 := rfl

/-- A timer after `n` ticks is `max(t - n, 0)` (R202). -/
theorem toNat_afterTicks (t : Byte) (n : Nat) : (afterTicks t n).toNat = t.toNat - n := by
  have ht := t.isLt
  unfold afterTicks
  split
  · next h => subst h; simp
  · simp only [BitVec.toNat_ofNat]; omega

theorem toNat_tickByte (t : Byte) : (tickByte t).toNat = t.toNat - 1 := by
  have ht := t.isLt
  unfold tickByte
  split
  · next h =>
    have h0 : t.toNat ≠ 0 := fun e => h (BitVec.eq_of_toNat_eq (by simpa using e))
    simp only [BitVec.toNat_sub, BitVec.toNat_ofNat]; omega
  · next h => simp only [not_not] at h; subst h; rfl

@[simp] theorem afterTicks_zero (t : Byte) : afterTicks t 0 = t := by
  apply BitVec.eq_of_toNat_eq; simp [toNat_afterTicks]

theorem afterTicks_succ (t : Byte) (n : Nat) : afterTicks (tickByte t) n = afterTicks t (n + 1) := by
  apply BitVec.eq_of_toNat_eq; simp only [toNat_afterTicks, toNat_tickByte]; omega

@[simp] theorem State.ticks_zero (s : State) : s.ticks 0 = s := by
  cases s; simp [State.ticks]

theorem State.ticks_succ (s : State) (n : Nat) : s.tick.ticks n = s.ticks (n + 1) := by
  simp [State.ticks, State.tick, afterTicks_succ]

end Sys2Proof.Machine
end

