-- ==== Sys2Proof/Laws/Step.lean ====
section
/-! SUPPORT. The step cycle: the fetch in and out of range, and one inversion for everything a step can do. -/

namespace Sys2Proof.Machine

variable (s : State)

theorem State.fetch_ok (h : s.pc.toNat ≤ 0xFFE) :
    s.fetch = .ok (wordOfBytes (s.mem.read s.pc.toNat) (s.mem.read (s.pc.toNat + 1))) := s.readWord_ok _ h

theorem State.fetch_error (h : 0xFFE < s.pc.toNat) :
    s.fetch = .error (.outOfBoundsAccess (max s.pc.toNat 0x1000)) := s.readWord_error _ h

/-- A fetch that answers was in range, and its word is the two bytes at `PC`. -/
theorem State.fetch_eq_ok {w : Word} (h : s.fetch = .ok w) :
    s.pc.toNat ≤ 0xFFE ∧ w = wordOfBytes (s.mem.read s.pc.toNat) (s.mem.read (s.pc.toNat + 1)) := by
  by_cases hp : s.pc.toNat ≤ 0xFFE
  · rw [s.fetch_ok hp] at h; cases h; exact ⟨hp, rfl⟩
  · rw [s.fetch_error (by omega)] at h; cases h

/-- After a fetch in range the advance of `PC` does not wrap (R25). -/
theorem State.toNat_pc_advance (h : s.pc.toNat ≤ 0xFFE) : (s.pc + 2#16).toNat = s.pc.toNat + 2 := by
  simp only [BitVec.toNat_add, BitVec.toNat_ofNat]; omega

theorem thenDo_eq_next {o : Host.Outcome State Fault Refusal} {g : State → State} {t : State} :
    thenDo o g = .next t ↔ ∃ u, o = .next u ∧ t = g u := by
  cases o <;> simp [thenDo, eq_comm]

@[simp] theorem thenDo_next (t : State) (g : State → State) : thenDo (.next t) g = .next (g t) := rfl
@[simp] theorem thenDo_raise (f : Fault) (g : State → State) : thenDo (raise f) g = .fault f := rfl

/-- What a fetched word does: an instruction is executed, anything else reported. -/
theorem State.execute_ok {w : Word} {i : Instr} (h : decode w = .ok i) : s.execute w = exec i s := by
  simp [State.execute, h]

theorem State.execute_error {w : Word} {r : Reject} (h : decode w = .error r) :
    s.execute w = .next (s.report w) := by
  simp [State.execute, h]

/-- Everything a `step` event can do: fault at the fetch, report an unrecognized word, or run an instruction. -/
theorem State.cycle_cases :
    (0xFFE < s.pc.toNat ∧ s.cycle = .fault (.outOfBoundsAccess (max s.pc.toNat 0x1000))) ∨
    (∃ w r, s.fetch = .ok w ∧ decode w = .error r ∧ s.cycle = .next ((s.setPc (s.pc + 2#16)).report w)) ∨
    (∃ w i, s.fetch = .ok w ∧ decode w = .ok i ∧ s.cycle = exec i (s.setPc (s.pc + 2#16))) := by
  by_cases hp : s.pc.toNat ≤ 0xFFE
  · right
    have hf := s.fetch_ok hp
    cases hd : decode (wordOfBytes (s.mem.read s.pc.toNat) (s.mem.read (s.pc.toNat + 1))) with
    | error r => exact .inl ⟨_, r, hf, hd, by simp [State.cycle, hf, State.execute_error _ hd]⟩
    | ok i => exact .inr ⟨_, i, hf, hd, by simp [State.cycle, hf, State.execute_ok _ hd]⟩
  · left
    refine ⟨by omega, ?_⟩
    simp [State.cycle, s.fetch_error (by omega), raise]

end Sys2Proof.Machine
end

