-- ==== Sys2Proof/WellFormed.lean ====
section
/-! DEFINITION. Well-formedness of an instruction. The field types already say that every operand fits its
field, so nothing is left to check there. What is left is R96: an assembler emits 0 in ignored bits. The
hardware accepts any value in them (R90, R96), so the decoder, `exec` and the statements about them hold for
every term, well-formed or not. -/

namespace Sys2Proof

/-- The form an assembler emits (R90, R96): the ignored nibble of the register skips is 0, and so is the Y
field of a shift on a machine whose shifts ignore it (`Q_SHIFT_SRC = VX`). -/
def Instr.wellFormed (p : Config.Params) : Instr → Bool
  | .seReg _ _ n => n == 0#4
  | .sneReg _ _ n => n == 0#4
  | .shr _ y => p.shiftSrc == .vy || y == 0
  | .shl _ y => p.shiftSrc == .vy || y == 0
  | .cls => true
  | .ret => true
  | .jp _ => true
  | .call _ => true
  | .seImm _ _ => true
  | .sneImm _ _ => true
  | .ldImm _ _ => true
  | .addImm _ _ => true
  | .ldReg _ _ => true
  | .orReg _ _ => true
  | .andReg _ _ => true
  | .xorReg _ _ => true
  | .addReg _ _ => true
  | .subReg _ _ => true
  | .subnReg _ _ => true
  | .ldI _ => true
  | .jpV0 _ => true
  | .rnd _ _ => true
  | .drw _ _ _ => true
  | .skp _ => true
  | .sknp _ => true
  | .ldVxDt _ => true
  | .ldVxK _ => true
  | .ldDtVx _ => true
  | .ldStVx _ => true
  | .addIVx _ => true
  | .ldFVx _ => true
  | .ldBVx _ => true
  | .ldMemVx _ => true
  | .ldVxMem _ => true

end Sys2Proof
end

