-- ==== Sys2Proof/Tests/Slice0.lean ====
section
/-! SUPPORT. Tests on fixed values. Expected results are the vectors of spec/95_test_vectors.md (their ids stand in the
comments) or computed by hand from the rule named; each is one step of a small state. At the end, for every statement
with hypotheses, states and operands that meet all of them, at the boundary of their range. -/

namespace Sys2Proof.Tests

open Sys2Proof Sys2Proof.Machine

/-! ### Helpers -/

/-- An input with the given keys and random byte, and no ticks. -/
def env (keys : BitVec 16) (rnd : Byte) : Config.Input :=
  { keys := keys, rnd := rnd, farKey := false, pick := 0, ticks := 0 }

/-- The reset state with a word at 0x200 and one scripted input. -/
def at0 (w : Word) (keys : BitVec 16 := 0x0000#16) (rnd : Byte := 0x00#8) : State :=
  { State.reset.withFetchWord 16 w.toNat with script := [env keys rnd] }

/-- The reset state with `PC` at an address and a word there. -/
def atPc (a : Word) (w : Word) : State :=
  ({ State.reset with pc := a, script := [env 0x0000#16 0x00#8] }).placeWord w

/-- The reset state after a fetch at 0x200, as `exec` sees it. -/
def ready : State := { State.reset with pc := 0x0202#16, script := [env 0x0000#16 0x00#8] }

def regs (s : State) (xs : List (RegIx × Byte)) : State := xs.foldl (fun t p => t.setV p.1 p.2) s

def withMem (s : State) (a : Nat) (bs : List Byte) : State := { s with mem := s.mem.place a bs }

/-- The stack with every entry `a` and the given depth. -/
def withStack (s : State) (d : Fin 17) (a : Word) : State := { s with sp := d, stack := Vector.replicate 16 a }

/-- What a step leaves, seen through `f`. -/
def see {α : Type} (f : State → α) (s : State) : Option α :=
  match step s with
  | .next t => some (f t)
  | .fault _ => none
  | .refused _ => none

/-- The fault of an outcome. -/
def stopOf (o : Host.Outcome State Fault Refusal) : Option Fault :=
  match o with
  | .next _ => none
  | .fault f => some f
  | .refused _ => none

/-- The fault of a step. -/
def faultOf (s : State) : Option Fault := stopOf (step s)

/-- The cells lit in a row, as columns. -/
def row (r : Fin 32) (s : State) : List Nat := (List.range 64).filter fun c => s.fb[r.val].getLsbD c

/-- The number of lit cells. -/
def litRows (s : State) : List Nat := (List.range 32).filter fun r => (s.fb.toList.getD r 0#64) != 0#64

/-! ### Well-formedness: each check refuses an ill-formed term (R90, R96) -/

theorem test_wf_seReg : (Instr.seReg 1 2 0x1#4).wellFormed Config.defaults = false := by decide
theorem test_wf_sneReg : (Instr.sneReg 1 2 0xF#4).wellFormed Config.defaults = false := by decide
theorem test_wf_shr : (Instr.shr 3 7).wellFormed Config.defaults = false := by decide
theorem test_wf_shl : (Instr.shl 3 7).wellFormed Config.defaults = false := by decide
theorem test_wf_accepts : (Instr.seReg 1 2 0x0#4).wellFormed Config.defaults = true ∧
    (Instr.sneReg 1 2 0x0#4).wellFormed Config.defaults = true ∧ (Instr.shr 3 0).wellFormed Config.defaults = true ∧
    (Instr.shl 3 7).wellFormed { Config.defaults with shiftSrc := .vy } = true := by decide

/-! ### Decoding: a word written out for every constructor (30_encoding.md R85 to R90) -/

theorem test_decode_cls : decode 0x00E0#16 = .ok (.cls) ∧
    decodeTableWord 16 0x00E0 = some (.cls) := by decide
theorem test_decode_ret : decode 0x00EE#16 = .ok (.ret) ∧
    decodeTableWord 16 0x00EE = some (.ret) := by decide
theorem test_decode_jp : decode 0x1234#16 = .ok (.jp 0x234#12) ∧
    decodeTableWord 16 0x1234 = some (.jp 0x234#12) := by decide
theorem test_decode_call : decode 0x2300#16 = .ok (.call 0x300#12) ∧
    decodeTableWord 16 0x2300 = some (.call 0x300#12) := by decide
theorem test_decode_seImm : decode 0x3A5C#16 = .ok (.seImm 10 0x5C#8) ∧
    decodeTableWord 16 0x3A5C = some (.seImm 10 0x5C#8) := by decide
theorem test_decode_sneImm : decode 0x4206#16 = .ok (.sneImm 2 0x06#8) ∧
    decodeTableWord 16 0x4206 = some (.sneImm 2 0x06#8) := by decide
theorem test_decode_seReg : decode 0x5121#16 = .ok (.seReg 1 2 0x1#4) ∧
    decodeTableWord 16 0x5121 = some (.seReg 1 2 0x1#4) := by decide
theorem test_decode_ldImm : decode 0x6FAB#16 = .ok (.ldImm 15 0xAB#8) ∧
    decodeTableWord 16 0x6FAB = some (.ldImm 15 0xAB#8) := by decide
theorem test_decode_addImm : decode 0x71FF#16 = .ok (.addImm 1 0xFF#8) ∧
    decodeTableWord 16 0x71FF = some (.addImm 1 0xFF#8) := by decide
theorem test_decode_ldReg : decode 0x8120#16 = .ok (.ldReg 1 2) ∧
    decodeTableWord 16 0x8120 = some (.ldReg 1 2) := by decide
theorem test_decode_orReg : decode 0x8121#16 = .ok (.orReg 1 2) ∧
    decodeTableWord 16 0x8121 = some (.orReg 1 2) := by decide
theorem test_decode_andReg : decode 0x8122#16 = .ok (.andReg 1 2) ∧
    decodeTableWord 16 0x8122 = some (.andReg 1 2) := by decide
theorem test_decode_xorReg : decode 0x8123#16 = .ok (.xorReg 1 2) ∧
    decodeTableWord 16 0x8123 = some (.xorReg 1 2) := by decide
theorem test_decode_addReg : decode 0x80F4#16 = .ok (.addReg 0 15) ∧
    decodeTableWord 16 0x80F4 = some (.addReg 0 15) := by decide
theorem test_decode_subReg : decode 0x8F15#16 = .ok (.subReg 15 1) ∧
    decodeTableWord 16 0x8F15 = some (.subReg 15 1) := by decide
theorem test_decode_shr : decode 0x8376#16 = .ok (.shr 3 7) ∧
    decodeTableWord 16 0x8376 = some (.shr 3 7) := by decide
theorem test_decode_subnReg : decode 0x8127#16 = .ok (.subnReg 1 2) ∧
    decodeTableWord 16 0x8127 = some (.subnReg 1 2) := by decide
theorem test_decode_shl : decode 0x830E#16 = .ok (.shl 3 0) ∧
    decodeTableWord 16 0x830E = some (.shl 3 0) := by decide
theorem test_decode_sneReg : decode 0x912A#16 = .ok (.sneReg 1 2 0xA#4) ∧
    decodeTableWord 16 0x912A = some (.sneReg 1 2 0xA#4) := by decide
theorem test_decode_ldI : decode 0xA300#16 = .ok (.ldI 0x300#12) ∧
    decodeTableWord 16 0xA300 = some (.ldI 0x300#12) := by decide
theorem test_decode_jpV0 : decode 0xBFFF#16 = .ok (.jpV0 0xFFF#12) ∧
    decodeTableWord 16 0xBFFF = some (.jpV0 0xFFF#12) := by decide
theorem test_decode_rnd : decode 0xC10F#16 = .ok (.rnd 1 0x0F#8) ∧
    decodeTableWord 16 0xC10F = some (.rnd 1 0x0F#8) := by decide
theorem test_decode_drw : decode 0xD125#16 = .ok (.drw 1 2 0x5#4) ∧
    decodeTableWord 16 0xD125 = some (.drw 1 2 0x5#4) := by decide
theorem test_decode_skp : decode 0xE09E#16 = .ok (.skp 0) ∧
    decodeTableWord 16 0xE09E = some (.skp 0) := by decide
theorem test_decode_sknp : decode 0xEFA1#16 = .ok (.sknp 15) ∧
    decodeTableWord 16 0xEFA1 = some (.sknp 15) := by decide
theorem test_decode_ldVxDt : decode 0xF107#16 = .ok (.ldVxDt 1) ∧
    decodeTableWord 16 0xF107 = some (.ldVxDt 1) := by decide
theorem test_decode_ldVxK : decode 0xF30A#16 = .ok (.ldVxK 3) ∧
    decodeTableWord 16 0xF30A = some (.ldVxK 3) := by decide
theorem test_decode_ldDtVx : decode 0xF015#16 = .ok (.ldDtVx 0) ∧
    decodeTableWord 16 0xF015 = some (.ldDtVx 0) := by decide
theorem test_decode_ldStVx : decode 0xF418#16 = .ok (.ldStVx 4) ∧
    decodeTableWord 16 0xF418 = some (.ldStVx 4) := by decide
theorem test_decode_addIVx : decode 0xF21E#16 = .ok (.addIVx 2) ∧
    decodeTableWord 16 0xF21E = some (.addIVx 2) := by decide
theorem test_decode_ldFVx : decode 0xF029#16 = .ok (.ldFVx 0) ∧
    decodeTableWord 16 0xF029 = some (.ldFVx 0) := by decide
theorem test_decode_ldBVx : decode 0xF933#16 = .ok (.ldBVx 9) ∧
    decodeTableWord 16 0xF933 = some (.ldBVx 9) := by decide
theorem test_decode_ldMemVx : decode 0xF355#16 = .ok (.ldMemVx 3) ∧
    decodeTableWord 16 0xF355 = some (.ldMemVx 3) := by decide
theorem test_decode_ldVxMem : decode 0xF265#16 = .ok (.ldVxMem 2) ∧
    decodeTableWord 16 0xF265 = some (.ldVxMem 2) := by decide

/-- vD1 to vD12. -/
theorem test_decode_unrecognized :
    decode 0x0000#16 = .error (.class0 0x0000#16) ∧ decode 0x00E1#16 = .error (.class0 0x00E1#16) ∧
    decode 0x01E0#16 = .error (.class0 0x01E0#16) ∧ decode 0x0123#16 = .error (.class0 0x0123#16) ∧
    decode 0x8008#16 = .error (.class8 0x8008#16) ∧ decode 0x812F#16 = .error (.class8 0x812F#16) ∧
    decode 0xE09F#16 = .error (.classE 0xE09F#16) ∧ decode 0xE000#16 = .error (.classE 0xE000#16) ∧
    decode 0xF000#16 = .error (.classF 0xF000#16) ∧ decode 0xF01F#16 = .error (.classF 0xF01F#16) ∧
    decode 0xF166#16 = .error (.classF 0xF166#16) ∧ decode 0xFFFF#16 = .error (.classF 0xFFFF#16) := by decide

theorem test_decode_short : decodeBytes [0x12#8] = .error .tooShort ∧ decodeBytes [] = .error .tooShort := by decide

/-! ### Control transfer -/

/-- vF1. -/
theorem test_jp : see (·.pc) (at0 0x1234#16) = some 0x0234#16 := by decide
/-- vF3. -/
theorem test_jp_top : see (·.pc) (at0 0x1FFF#16) = some 0x0FFF#16 := by decide
/-- vF4. -/
theorem test_call : 
    see (fun t => (t.pc, t.sp.val, t.stack[0])) (at0 0x2300#16) = some (0x0300#16, 1, 0x0202#16) := by decide
/-- vF5 and vF6. -/
theorem test_call_full : 
    see (fun t => (t.pc, t.sp.val, t.stack[15])) (withStack (at0 0x2300#16) 15 0x0ABC#16) = some (0x0300#16, 16, 0x0202#16) ∧
    faultOf (withStack (at0 0x2300#16) 16 0x0ABC#16) = some .stackOverflow := by decide
/-- vF7. -/
theorem test_ret : 
    see (fun t => (t.pc, t.sp.val)) (withStack (at0 0x00EE#16) 1 0x0ABC#16) = some (0x0ABC#16, 0) := by decide
/-- vF8. -/
theorem test_ret_empty : faultOf (at0 0x00EE#16) = some .stackUnderflow := by decide
/-- vF9. -/
theorem test_seImm : see (·.pc) (at0 0x3100#16) = some 0x0204#16 := by decide
/-- vF10. -/
theorem test_seImm_not : see (·.pc) (regs (at0 0x3100#16) [(1, 0x01#8)]) = some 0x0202#16 := by decide
/-- vF11. -/
theorem test_sneImm : see (·.pc) (regs (at0 0x4206#16) [(2, 0x05#8)]) = some 0x0204#16 := by decide
/-- vF12. -/
theorem test_sneImm_not : see (·.pc) (regs (at0 0x4205#16) [(2, 0x05#8)]) = some 0x0202#16 := by decide
/-- vF14. -/
theorem test_seReg_nibble : see (·.pc) (regs (at0 0x5121#16) [(1, 0x33#8), (2, 0x33#8)]) = some 0x0204#16 := by decide
/-- R115: the registers differ. -/
theorem test_seReg_not : see (·.pc) (regs (at0 0x5120#16) [(1, 0x33#8)]) = some 0x0202#16 := by decide
/-- vF16. -/
theorem test_sneReg : see (·.pc) (regs (at0 0x9120#16) [(1, 0x01#8), (2, 0x02#8)]) = some 0x0204#16 := by decide
/-- vF17. -/
theorem test_sneReg_self : see (·.pc) (regs (at0 0x9330#16) [(3, 0x09#8)]) = some 0x0202#16 := by decide
/-- vF18. -/
theorem test_jpV0 : see (·.pc) (regs (at0 0xB300#16) [(0, 0x04#8)]) = some 0x0304#16 := by decide
/-- vF19. -/
theorem test_jpV0_unmasked : see (·.pc) (regs (at0 0xBFFF#16) [(0, 0xFF#8)]) = some 0x10FE#16 := by decide

/-! ### Registers and arithmetic -/

/-- vA29. -/
theorem test_ldImm : see (fun t => [t.getV 15]) (at0 0x6FAB#16) = some [0xAB#8] := by decide
/-- vA30. -/
theorem test_addImm : 
    see (fun t => [t.getV 1, t.getV 15]) (regs (at0 0x71FF#16) [(1, 0x05#8), (15, 0x07#8)])
      = some [0x04#8, 0x07#8] := by decide
/-- vA32. -/
theorem test_addImm_vf : see (fun t => [t.getV 15]) (regs (at0 0x7F01#16) [(15, 0xFF#8)]) = some [0x00#8] := by decide
/-- vA33. -/
theorem test_ldReg : 
    see (fun t => [t.getV 1, t.getV 2]) (regs (at0 0x8120#16) [(2, 0x7E#8)]) = some [0x7E#8, 0x7E#8] := by decide
/-- vA34. -/
theorem test_orReg : 
    see (fun t => [t.getV 1, t.getV 15]) (regs (at0 0x8121#16) [(1, 0xF0#8), (2, 0x0F#8), (15, 0x01#8)])
      = some [0xFF#8, 0x01#8] := by decide
/-- vA35. -/
theorem test_andReg : 
    see (fun t => [t.getV 1]) (regs (at0 0x8122#16) [(1, 0xF3#8), (2, 0x3F#8)]) = some [0x33#8] := by decide
/-- vA36. -/
theorem test_xorReg : 
    see (fun t => [t.getV 1]) (regs (at0 0x8123#16) [(1, 0xFF#8), (2, 0x0F#8)]) = some [0xF0#8] := by decide
/-- vA4. -/
theorem test_addReg : 
    see (fun t => [t.getV 0, t.getV 15]) (regs (at0 0x8014#16) [(0, 0xFF#8), (1, 0x01#8)])
      = some [0x00#8, 0x01#8] := by decide
/-- vA7. -/
theorem test_addReg_vf : 
    see (fun t => [t.getV 15]) (regs (at0 0x8F14#16) [(15, 0xF0#8), (1, 0x20#8)]) = some [0x01#8] := by decide
/-- vA11. -/
theorem test_subReg : 
    see (fun t => [t.getV 1, t.getV 15]) (regs (at0 0x8125#16) [(1, 0x07#8), (2, 0x07#8)])
      = some [0x00#8, 0x01#8] := by decide
/-- vA15. -/
theorem test_subReg_old_vf : 
    see (fun t => [t.getV 0, t.getV 15]) (regs (at0 0x80F5#16) [(0, 0x00#8), (15, 0x01#8)])
      = some [0xFF#8, 0x00#8] := by decide
/-- vA17. -/
theorem test_subnReg : 
    see (fun t => [t.getV 1, t.getV 15]) (regs (at0 0x8127#16) [(1, 0x20#8), (2, 0x10#8)])
      = some [0xF0#8, 0x00#8] := by decide
/-- vA18. -/
theorem test_subnReg_vf : 
    see (fun t => [t.getV 15]) (regs (at0 0x8F17#16) [(15, 0x05#8), (1, 0x03#8)]) = some [0x00#8] := by decide
/-- vA20. -/
theorem test_shr : 
    see (fun t => [t.getV 3, t.getV 7, t.getV 15]) (regs (at0 0x8376#16) [(3, 0x05#8), (7, 0xFE#8)])
      = some [0x02#8, 0xFE#8, 0x01#8] := by decide
/-- vA20 with Q_SHIFT_SRC = VY. -/
theorem test_shr_vy : 
    see (fun t => [t.getV 3, t.getV 15])
      { regs (at0 0x8376#16) [(3, 0x05#8), (7, 0xFE#8)] with params := { Config.defaults with shiftSrc := .vy } }
      = some [0x7F#8, 0x00#8] := by decide
/-- vA24. -/
theorem test_shl : 
    see (fun t => [t.getV 3, t.getV 15]) (regs (at0 0x830E#16) [(3, 0x81#8)]) = some [0x02#8, 0x01#8] := by decide
/-- vA27. -/
theorem test_shl_vf : see (fun t => [t.getV 15]) (regs (at0 0x8F0E#16) [(15, 0x7F#8)]) = some [0x00#8] := by decide
/-- vA38. -/
theorem test_rnd : see (fun t => [t.getV 1]) (at0 0xC10F#16 0x0000#16 0xA7#8) = some [0x07#8] := by decide
/-- vA40. -/
theorem test_rnd_vf : see (fun t => [t.getV 15]) (at0 0xCFFF#16 0x0000#16 0x5A#8) = some [0x5A#8] := by decide

/-! ### Address register and memory -/

/-- vM1. -/
theorem test_ldI : see (·.i) ((at0 0xA300#16).setI 0xFFFF#16) = some 0x0300#16 := by decide
/-- vM6. -/
theorem test_addIVx : 
    see (fun t => (t.i, t.getV 15)) ((regs (at0 0xFF1E#16) [(15, 0x02#8)]).setI 0x0FFE#16)
      = some (0x1000#16, 0x01#8) := by decide
/-- vM7. -/
theorem test_addIVx_wraps : 
    see (fun t => (t.i, t.getV 15)) ((regs (at0 0xF21E#16) [(2, 0x01#8), (15, 0x01#8)]).setI 0xFFFF#16)
      = some (0x0000#16, 0x00#8) := by decide
/-- vM9. -/
theorem test_ldFVx : see (·.i) (regs (at0 0xF029#16) [(0, 0x0F#8)]) = some 0x004B#16 := by decide
/-- vM10. -/
theorem test_ldFVx_unmasked : see (·.i) (regs (at0 0xF029#16) [(0, 0xFF#8)]) = some 0x04FB#16 := by decide
/-- vM14. -/
theorem test_ldBVx : 
    see (fun t => [t.mem.read 0xFFD, t.mem.read 0xFFE, t.mem.read 0xFFF])
      ((regs (at0 0xF033#16) [(0, 0x6D#8)]).setI 0x0FFD#16)
      = some [0x01#8, 0x00#8, 0x09#8] := by decide
/-- vM15 and vM16. -/
theorem test_ldBVx_end : 
    faultOf ((regs (at0 0xF033#16) [(0, 0x6D#8)]).setI 0x0FFE#16) = some (.outOfBoundsAccess 0x1000) ∧
    faultOf ((at0 0xF033#16).setI 0xFFFF#16) = some (.outOfBoundsAccess 0xFFFF) := by decide
/-- vM17. -/
theorem test_ldMemVx : 
    see (fun t => (t.i, [t.mem.read 0x400, t.mem.read 0x401, t.mem.read 0x402, t.mem.read 0x403]))
      ((regs (at0 0xF255#16) [(0, 0x11#8), (1, 0x22#8), (2, 0x33#8), (3, 0x44#8)]).setI 0x0400#16)
      = some (0x0400#16, [0x11#8, 0x22#8, 0x33#8, 0x00#8]) := by decide
/-- vM17 with Q_MEM_INC = true, and vM20. -/
theorem test_ldMemVx_inc : 
    see (·.i) { (at0 0xF255#16).setI 0x0400#16 with params := { Config.defaults with memInc := true } } = some 0x0403#16 ∧
    faultOf ((at0 0xFF55#16).setI 0x0FF1#16) = some (.outOfBoundsAccess 0x1000) := by decide
/-- vM21. -/
theorem test_ldVxMem : 
    see (fun t => [t.getV 0, t.getV 1, t.getV 2, t.getV 3]) (regs (at0 0xF265#16) [(3, 0x44#8)])
      = some [0xF0#8, 0x90#8, 0x90#8, 0x44#8] := by decide
/-- vM22 and vM23. -/
theorem test_ldVxMem_end : 
    see (·.v.toList) ((at0 0xFF65#16).setI 0x0005#16) = some (Config.fontBytes.drop 5 |>.take 16) ∧
    faultOf ((at0 0xF165#16).setI 0x0FFF#16) = some (.outOfBoundsAccess 0x1000) := by decide

/-! ### Display -/

/-- vG1. -/
theorem test_cls : 
    see (fun t => (litRows t, t.getV 15)) ({ regs (at0 0x00E0#16) [(15, 0x01#8)] with fb := Vector.replicate 32 5#64 })
      = some ([], 0x01#8) := by decide
/-- vG5. -/
theorem test_drw : 
    see (fun t => (litRows t, row 31 t, row 0 t, t.getV 15)) (withMem
      ((regs (at0 0xD012#16) [(0, 0xFF#8), (1, 0xFF#8)]).setI 0x0300#16) 0x300 [0x81#8, 0x01#8])
      = some ([0, 31], [6, 63], [6], 0x00#8) := by decide
/-- vG7. -/
theorem test_drw_collision : 
    see (fun t => (litRows t, row 0 t, t.getV 15))
      (withMem { (at0 0xD011#16).setI 0x0300#16 with fb := (Vector.replicate 32 0#64).set 0 0x18#64 } 0x300 [0xF0#8])
      = some ([0], [0, 1, 2, 4], 0x01#8) := by decide

/-! ### Keys and timers -/

/-- vK1. -/
theorem test_skp : see (·.pc) (regs (at0 0xE09E#16 0x0020#16) [(0, 0x05#8)]) = some 0x0204#16 := by decide
/-- vK2. -/
theorem test_skp_not : see (·.pc) (regs (at0 0xE09E#16 0xFFDF#16) [(0, 0x05#8)]) = some 0x0202#16 := by decide
/-- vK3. -/
theorem test_sknp : see (·.pc) (regs (at0 0xE0A1#16 0x0000#16) [(0, 0x05#8)]) = some 0x0204#16 := by decide
/-- vK4. -/
theorem test_sknp_not : see (·.pc) (regs (at0 0xE0A1#16 0x0020#16) [(0, 0x05#8)]) = some 0x0202#16 := by decide
/-- vK6. -/
theorem test_ldVxK_waits : 
    see (fun t => (t.pc, t.getV 3)) (regs (at0 0xF30A#16 0x0000#16) [(3, 0x09#8)]) = some (0x0200#16, 0x09#8) := by decide
/-- vK7. -/
theorem test_ldVxK : see (fun t => (t.pc, t.getV 3)) (at0 0xF30A#16 0x0080#16) = some (0x0202#16, 0x07#8) := by decide
/-- vK9. -/
theorem test_ldVxDt : 
    see (fun t => (t.getV 1, t.dt)) ((at0 0xF107#16).setDt 0x2A#8) = some (0x2A#8, 0x2A#8) := by decide
/-- vK10. -/
theorem test_ldDtVx : 
    see (fun t => (t.dt, t.st)) (regs (at0 0xF015#16) [(0, 0x0A#8)]) = some (0x0A#8, 0x00#8) := by decide
/-- vK11. -/
theorem test_ldStVx : 
    see (fun t => (t.st, t.tone)) (regs (at0 0xF418#16) [(4, 0x03#8)]) = some (0x03#8, true) := by decide

/-- vK12 and vK13. -/
theorem test_tick : (State.reset.setDt 0x02#8).tick = State.reset.setDt 0x01#8 ∧
    (State.reset.setSt 0x01#8).tick = State.reset ∧ State.reset.tick = State.reset := by decide

/-- R234: two ticks after a step that sets the delay timer to 10. -/
theorem test_ticks_between :
    see (·.dt) { (at0 0xF015#16).setV 0 0x0A#8 with
      script := [{ keys := 0#16, rnd := 0#8, farKey := false, pick := 0, ticks := 2 }] } = some 0x08#8 := by decide

/-! ### Fetch, unrecognized words, reset -/

/-- vE2. -/
theorem test_fetch_odd : see (fun t => (t.pc, t.getV 0)) (atPc 0x0201#16 0x6007#16) = some (0x0203#16, 0x07#8)
      := by decide
/-- vE3. -/
theorem test_fetch_last : see (fun t => (t.pc, t.getV 0)) (atPc 0x0FFE#16 0x6007#16) = some (0x1000#16, 0x07#8)
      := by decide
/-- vE4, vE5 and the second step of vF19. -/
theorem test_fetch_beyond : faultOf (atPc 0x0FFF#16 0x6007#16) = some (.outOfBoundsAccess 0x1000) ∧
    faultOf (atPc 0x1000#16 0x6007#16) = some (.outOfBoundsAccess 0x1000) ∧
    faultOf (atPc 0x10FE#16 0x6007#16) = some (.outOfBoundsAccess 0x10FE) := by decide
/-- vE6. -/
theorem test_fetch_font : see (fun t => (t.pc, t.reports)) { State.reset with pc := 0x0000#16 } = some (0x0002#16, [0xF090#16])
      := by
  decide
/-- vZ2: nothing is loaded at reset, and the first step reports 0x0000. -/
theorem test_reset_step : see (fun t => (t.pc, t.reports)) State.reset = some (0x0202#16, [0x0000#16]) := by decide
/-- vM24, second step: the word just stored at 0x202 is what the next fetch reads. -/
theorem test_store_then_fetch :
    see (fun t => (t.setPc 0x0202#16).fetch) ((((at0 0xF155#16).setV 0 0x60#8).setV 1 0x2A#8).setI 0x0202#16)
      = some (.ok 0x602A#16) := by decide
/-- vZ1: `reset(image)` with image 12 00. -/
theorem test_reset_image : (State.resetWith Config.defaults [0x12#8, 0x00#8]).mem = [(0x200, 0x12#8)] ∧
    (State.resetWith Config.defaults [0x12#8, 0x00#8]).pc = 0x0200#16 := by decide
/-- vZ4. -/
theorem test_reset_too_long : State.reset.apply (.reset (List.replicate 3585 0x00#8)) = .refused (.imageTooLong 3585)
      := by
  rw [State.apply, if_neg (by rw [List.length_replicate]; decide), List.length_replicate]

/-- R29, R32: a write is read back, and writing the reset contents back removes the cell. -/
theorem test_memory : (Memory.write [] 0x300 0x07#8).read 0x300 = 0x07#8 ∧ (Memory.write [] 0x300 0x07#8).wf = true ∧
    (Memory.write (Memory.write [] 0x300 0x07#8) 0x300 0x00#8) = [] ∧ Memory.wf [(0x300, 0x00#8)] = false := by decide

/-! ### States and operands that meet the hypotheses of the statements -/

theorem test_meets_EncodeUndoesDecode :
    decode 0x5FFF#16 = .ok (.seReg 15 15 0xF#4) ∧ decode 0xFF65#16 = .ok (.ldVxMem 15) := by decide

theorem test_meets_DecodeFollowsTheOpcodeTable :
    decode 0x9FFF#16 = .ok (.sneReg 15 15 0xF#4) ∧
    0x9FFF#16 &&& (Instr.sneReg 0 0 0x0#4).row.1 = (Instr.sneReg 0 0 0x0#4).row.2 ∧
    0xEFA1#16 &&& (Instr.sknp 0).row.1 = (Instr.sknp 0).row.2 := by decide

theorem test_meets_StepRunsTheDecodedInstruction :
    (StandsAtPc (at0 0x6FAB#16) 0x6FAB#16 ∧ decode 0x6FAB#16 = .ok (.ldImm 15 0xAB#8)) ∧
    StandsAtPc (atPc 0x0FFE#16 0x5121#16) 0x5121#16 ∧ decode 0x5121#16 = .ok (.seReg 1 2 0x1#4) := by
  unfold StandsAtPc; decide

theorem test_meets_UnrecognizedWordIsReportedAndPassed :
    (StandsAtPc (at0 0x0000#16) 0x0000#16 ∧ decode 0x0000#16 = .error (.class0 0x0000#16)) ∧
    (StandsAtPc (atPc 0x0FFE#16 0xFFFF#16) 0xFFFF#16 ∧ decode 0xFFFF#16 = .error (.classF 0xFFFF#16)) ∧
    (at0 0x0000#16).result = .unrecognized 0x0000#16 ∧ (at0 0x00E0#16).result = .ok := by
  unfold StandsAtPc; decide

theorem test_meets_FetchBeyondMemoryFaults :
    0xFFE < (atPc 0x0FFF#16 0x00E0#16).pc.toNat ∧ 0xFFE < (atPc 0xFFFF#16 0x00E0#16).pc.toNat := by decide

theorem test_meets_StepResultIsTheOutcome :
    (at0 0x00EE#16).result = .fault .stackUnderflow ∧ (at0 0x00E0#16).result = .ok ∧
    (at0 0xE000#16).result = .unrecognized 0xE000#16 := by decide

theorem test_meets_StackOverflowOnlyByCallWhenFull :
    exec (.call 0x300#12) (withStack ready 16 0x0202#16) = .fault .stackOverflow ∧
    stopOf (exec (.call 0x300#12) (withStack ready 15 0x0202#16)) = none := ⟨rfl, rfl⟩

theorem test_meets_StackUnderflowOnlyByReturnWhenEmpty :
    exec .ret ready = .fault .stackUnderflow ∧ (at0 0x00EE#16).result = .fault .stackUnderflow ∧
    stopOf (exec .ret (withStack ready 1 0x0ABC#16)) = none := ⟨rfl, rfl, rfl⟩

theorem test_meets_OutOfBoundsOnlyByDataPastTheEnd :
    exec (.drw 0 0 0x1#4) (ready.setI 0x1000#16) = .fault (.outOfBoundsAccess 0x1000) ∧
    exec (.drw 0 0 0x2#4) (ready.setI 0x0FFF#16) = .fault (.outOfBoundsAccess 0x1000) ∧
    exec (.ldBVx 0) (ready.setI 0x0FFE#16) = .fault (.outOfBoundsAccess 0x1000) ∧
    exec (.ldMemVx 0) (ready.setI 0xFFFF#16) = .fault (.outOfBoundsAccess 0xFFFF) ∧
    exec (.ldVxMem 15) (ready.setI 0x0FF1#16) = .fault (.outOfBoundsAccess 0x1000) := ⟨rfl, rfl, rfl, rfl, rfl⟩

theorem test_meets_InstructionCompletesExactlyIfItFits :
    (Instr.drw 0 0 0x0#4).fits (ready.setI 0xFFFF#16) ∧ (Instr.ldMemVx 15).fits (ready.setI 0x0FF0#16) ∧
    (Instr.call 0x300#12).fits (withStack ready 15 0x0202#16) ∧ Instr.ret.fits (withStack ready 1 0x0202#16) := by
  unfold Instr.fits
  exact ⟨⟨by simp, by simp, by decide⟩, ⟨by simp, by simp, by decide⟩, ⟨by decide, by decide, by decide⟩,
    ⟨by decide, by decide, by decide⟩⟩

theorem test_meets_EveryStepKeepsTheInvariant :
    Inv (regs (at0 0xBFFF#16) [(0, 0xFF#8)]) ∧ Inv (withStack (at0 0x00EE#16) 16 0x1000#16) ∧
    see (·.pc) (regs (at0 0xBFFF#16) [(0, 0xFF#8)]) = some 0x10FE#16 ∧
    see (·.sp.val) (withStack (at0 0x00EE#16) 16 0x1000#16) = some 15 := by
  unfold Inv; decide

theorem test_meets_EveryRunOfEventsKeepsTheInvariant :
    Inv (at0 0x2300#16) ∧
    (∃ t, State.runEvents [.step, .tick, .tick] (at0 0x2300#16) = .next t ∧ t.pc = 0x0300#16) ∧
    ∃ t, State.runEvents [.step, .reset [0x12#8, 0x00#8], .step] (at0 0x2300#16) = .next t ∧ t.pc = 0x0200#16 := by
  refine ⟨?_, ⟨_, rfl, by decide⟩, ⟨_, rfl, by decide⟩⟩
  unfold Inv; decide

theorem test_meets_ShiftsHalveAndDouble :
    0xFF = ((regs ready [(3, 0xFF#8)]).getV (if (regs ready [(3, 0xFF#8)]).params.shiftSrc = .vx then 3 else 7)).toNat ∧
    0x80 = ((regs { ready with params := { Config.defaults with shiftSrc := .vy } } [(7, 0x80#8)]).getV
      (if (regs { ready with params := { Config.defaults with shiftSrc := .vy } } [(7, 0x80#8)]).params.shiftSrc = .vx
        then 3 else 7)).toNat := by decide

/-- W9: 0x2A goes to 0x15 and back, 0x2B does not come back. -/
theorem test_meets_ShiftRoundTripKeepsUnlostBits :
    ready.params.shiftSrc = .vx ∧ (3 : RegIx) ≠ 15 ∧
    (∃ t u, exec (.shr 3 0) (ready.setV 3 0x2A#8) = .next t ∧ exec (.shl 3 0) t = .next u ∧ u.getV 3 = 0x2A#8) ∧
    (∃ t u, exec (.shr 3 0) (ready.setV 3 0x2B#8) = .next t ∧ exec (.shl 3 0) t = .next u ∧ u.getV 3 = 0x2A#8) ∧
    (∃ t u, exec (.shl 3 0) (ready.setV 3 0x7F#8) = .next t ∧ exec (.shr 3 0) t = .next u ∧ u.getV 3 = 0x7F#8) ∧
    ∃ t u, exec (.shl 3 0) (ready.setV 3 0x80#8) = .next t ∧ exec (.shr 3 0) t = .next u ∧ u.getV 3 = 0x00#8 :=
  ⟨rfl, by decide, ⟨_, _, rfl, rfl, by decide⟩, ⟨_, _, rfl, rfl, by decide⟩, ⟨_, _, rfl, rfl, by decide⟩,
    ⟨_, _, rfl, rfl, by decide⟩⟩

theorem test_meets_RandomIsTheInputByteMasked : (0x7F#8).getLsbD 7 = false ∧ (0x00#8).getLsbD 0 = false := by decide

theorem test_meets_CallPushesThePostFetchPc :
    ready.sp.val < 16 ∧ (withStack ready 15 0x0202#16).sp.val < 16 ∧ (withStack ready 16 0x0202#16).sp.val = 16 := by
  decide

theorem test_meets_ReturnPopsThePc :
    0 < (withStack ready 1 0x0ABC#16).sp.val ∧ (0 : Fin 16).val + 1 = (withStack ready 1 0x0ABC#16).sp.val ∧
    0 < (withStack ready 16 0x0ABC#16).sp.val ∧ (15 : Fin 16).val + 1 = (withStack ready 16 0x0ABC#16).sp.val ∧
    ready.sp.val = 0 := by decide

/-- The state a return starts from may differ in everything but the stack. -/
theorem test_meets_ReturnUndoesCall :
    ∃ t u, exec (.call 0x300#12) (withStack ready 15 0x0ABC#16) = .next t ∧ u = (t.setPc 0x0456#16).setV 2 0x07#8 ∧
      u.sp = t.sp ∧ u.stack = t.stack ∧ u ≠ t :=
  ⟨_, _, rfl, rfl, rfl, rfl, by decide⟩

theorem test_meets_SkipsMovePcByTwoOrNothing :
    decide (ready.getV 1 = 0x00#8) = true ∧ decide (ready.getV 1 ≠ 0x00#8) = false ∧
    decide (ready.getV 1 = ready.getV 2) = true ∧ decide (ready.getV 1 ≠ ready.getV 2) = false ∧
    keyAnswer { ready with script := [env 0x8000#16 0x00#8] } 0x0F#8 = true ∧
    (!keyAnswer { ready with script := [env 0x7FFF#16 0x00#8] } 0x0F#8) = true ∧
    keyAnswer { ready with script := [{ env 0x0000#16 0x00#8 with farKey := true }] } 0x10#8 = true := by decide

theorem test_meets_SkipStepsOverOneSlot :
    (StandsAtPc (atPc 0x0FFE#16 0x3100#16) 0x3100#16 ∧ decode 0x3100#16 = .ok (.seImm 1 0x00#8) ∧
      (Instr.seImm 1 0x00#8).skipCondition (atPc 0x0FFE#16 0x3100#16) = some true) ∧
    (StandsAtPc (at0 0x4100#16) 0x4100#16 ∧ decode 0x4100#16 = .ok (.sneImm 1 0x00#8) ∧
      (Instr.sneImm 1 0x00#8).skipCondition (at0 0x4100#16) = some false) ∧
    (StandsAtPc (at0 0x5121#16) 0x5121#16 ∧ decode 0x5121#16 = .ok (.seReg 1 2 0x1#4) ∧
      (Instr.seReg 1 2 0x1#4).skipCondition (at0 0x5121#16) = some true) ∧
    (StandsAtPc (at0 0x9330#16) 0x9330#16 ∧ decode 0x9330#16 = .ok (.sneReg 3 3 0x0#4) ∧
      (Instr.sneReg 3 3 0x0#4).skipCondition (at0 0x9330#16) = some false) ∧
    (StandsAtPc (at0 0xE09E#16 0x0001#16) 0xE09E#16 ∧ decode 0xE09E#16 = .ok (.skp 0) ∧
      (Instr.skp 0).skipCondition (at0 0xE09E#16 0x0001#16) = some true) ∧
    (StandsAtPc (at0 0xE0A1#16 0x0001#16) 0xE0A1#16 ∧ decode 0xE0A1#16 = .ok (.sknp 0) ∧
      (Instr.sknp 0).skipCondition (at0 0xE0A1#16 0x0001#16) = some false) := by
  unfold StandsAtPc; decide

theorem test_meets_OppositeSkipsExcludeEachOther :
    ((regs ready [(2, 0x0F#8)]).getV 2).toNat ≤ 15 ∧ (ready.getV 2).toNat ≤ 15 := by decide

theorem test_meets_StoreBcdWritesThreeDigits :
    (ready.setI 0x0FFD#16).i.toNat + 2 ≤ 0xFFF ∧ (ready.setI 0x0000#16).i.toNat + 2 ≤ 0xFFF := by decide

theorem test_meets_RegisterDumpStoresTheRegisters :
    (ready.setI 0x0FFF#16).i.toNat + (0 : RegIx).val ≤ 0xFFF ∧ (ready.setI 0x0FF0#16).i.toNat + (15 : RegIx).val ≤ 0xFFF ∧
    (15 : RegIx).val ≤ (15 : RegIx).val := by decide

theorem test_meets_RegisterLoadReadsTheRegisters :
    (ready.setI 0x0FFF#16).i.toNat + (0 : RegIx).val ≤ 0xFFF ∧ (ready.setI 0x0FF0#16).i.toNat + (15 : RegIx).val ≤ 0xFFF ∧
    (0 : RegIx).val < (1 : RegIx).val := by decide

theorem test_meets_LoadAfterDumpRestoresTheRegisters :
    (ready.setI 0x0FF0#16).params.memInc = false ∧ ∃ t, exec (.ldMemVx 15) (ready.setI 0x0FF0#16) = .next t :=
  ⟨rfl, _, rfl⟩

theorem test_meets_StoresAreSeenByTheNextFetch :
    (∃ t, exec (.ldMemVx 15) (ready.setI 0x0FF0#16) = .next t) ∧ (14 : RegIx).val < (15 : RegIx).val ∧
    (0x0FFE#16).toNat = (ready.setI 0x0FF0#16).i.toNat + (14 : RegIx).val :=
  ⟨⟨_, rfl⟩, by decide, by decide⟩

theorem test_meets_CanonicalMemoriesAreEqualIfTheyReadEqual :
    (Memory.place [] 0x300 [0x01#8, 0x02#8]).wf = true ∧
    ((Memory.write [] 0x301 0x02#8).write 0x300 0x01#8).wf = true ∧
    ∀ a, (Memory.place [] 0x300 [0x01#8, 0x02#8]).read a = ((Memory.write [] 0x301 0x02#8).write 0x300 0x01#8).read a :=
  ⟨by decide, by decide, fun _ => rfl⟩

/-- The corner at column 60, one row of 8 bits: column 3 of row 0 is covered, and lit before in the second state. -/
theorem test_meets_DrawSpriteTogglesAndSetsCollision :
    ((0x0#4).toNat = 0 ∨ (ready.setI 0xFFFF#16).i.toNat + (0x0#4).toNat ≤ 0x1000) ∧
    ((0xF#4).toNat = 0 ∨ (ready.setI 0x0FF1#16).i.toNat + (0xF#4).toNat ≤ 0x1000) ∧
    (∃ r c, State.display { withMem (ready.setI 0x0300#16) 0x300 [0xFF#8] with fb := Vector.replicate 32 8#64 } r c = true ∧
      SpriteCovers { withMem (ready.setI 0x0300#16) 0x300 [0xFF#8] with fb := Vector.replicate 32 8#64 } 60 0 1 r c) ∧
    ¬ ∃ r c, ready.display r c = true ∧ SpriteCovers ready 0 0 1 r c := by
  refine ⟨by decide, by decide, ⟨0, 3, by decide, 0, 7, by decide⟩, fun ⟨r, c, h, _⟩ => ?_⟩
  have hd : ready.display r c = false := by simp [State.display, Framebuffer.lit, ready, State.reset]
  rw [hd] at h; cases h

theorem test_meets_DrawingTwiceRestoresTheScreen :
    (∃ t, exec (.drw 15 1 0x5#4) (ready.setI 0x000F#16) = .next t) ∧
    ∃ t, exec (.drw 0 1 0x0#4) (ready.setI 0xFFFF#16) = .next t := ⟨⟨_, rfl⟩, ⟨_, rfl⟩⟩

theorem test_meets_WaitForKeyPollsOrStoresAPressedKey :
    ready.input.keys = 0x0000#16 ∧ State.input { ready with script := [env 0x8001#16 0x00#8] } ≠ env 0x0000#16 0x00#8 ∧
    (State.input { ready with script := [env 0x8001#16 0x00#8] }).keys ≠ 0x0000#16 := by decide

/-- vK8: with keys 0 and 7 pressed both can be stored, by the free choice. -/
theorem test_meets_AnyPressedKeyCanBeStored :
    (State.input { ready with script := [env 0x0081#16 0x00#8] }).keys.getLsbD (0 : Fin 16).val = true ∧
    (State.input { ready with script := [env 0x0081#16 0x00#8] }).keys.getLsbD (7 : Fin 16).val = true ∧
    see (·.getV 3) { at0 0xF30A#16 with script := [{ env 0x0081#16 0x00#8 with pick := 0 }] } = some 0x00#8 ∧
    see (·.getV 3) { at0 0xF30A#16 with script := [{ env 0x0081#16 0x00#8 with pick := 1 }] } = some 0x07#8 := by decide

theorem test_meets_WaitingForAKeyChangesNothing :
    (StandsAtPc (at0 0xF30A#16) 0xF30A#16 ∧ decode 0xF30A#16 = .ok (.ldVxK 3) ∧ (at0 0xF30A#16).input.keys = 0x0000#16) ∧
    StandsAtPc (atPc 0x0FFE#16 0xF30A#16) 0xF30A#16 ∧ (atPc 0x0FFE#16 0xF30A#16).input.keys = 0x0000#16 := by
  unfold StandsAtPc; decide

theorem test_meets_JumpToSelfIsTheEndOfARun :
    (StandsAtPc (at0 0x1200#16) 0x1200#16 ∧ (0x1200#16).toNat = 0x1000 + (at0 0x1200#16).pc.toNat) ∧
    StandsAtPc (atPc 0x0FFE#16 0x1FFE#16) 0x1FFE#16 ∧
      (0x1FFE#16).toNat = 0x1000 + (atPc 0x0FFE#16 0x1FFE#16).pc.toNat := by
  unfold StandsAtPc; decide

/-- load-immediate meets every premise at once; each exception has a step of its own above. -/
theorem test_meets_EachFieldHasFewWriters :
    (∃ t, exec (.ldImm 1 0x07#8) ready = .next t) ∧ Instr.ldImm 1 0x07#8 ≠ .cls ∧ Instr.ldImm 1 0x07#8 ≠ .ret ∧
    (∀ x y n, Instr.ldImm 1 0x07#8 ≠ .drw x y n) ∧ (∀ x, Instr.ldImm 1 0x07#8 ≠ .ldBVx x) ∧
    (∀ x, Instr.ldImm 1 0x07#8 ≠ .ldMemVx x) ∧ (∀ x, Instr.ldImm 1 0x07#8 ≠ .ldVxMem x) ∧
    (∀ n, Instr.ldImm 1 0x07#8 ≠ .call n) ∧ (∀ n, Instr.ldImm 1 0x07#8 ≠ .ldI n) ∧
    (∀ x, Instr.ldImm 1 0x07#8 ≠ .addIVx x) ∧ (∀ x, Instr.ldImm 1 0x07#8 ≠ .ldFVx x) ∧
    (∀ x, Instr.ldImm 1 0x07#8 ≠ .ldDtVx x) ∧ (∀ x, Instr.ldImm 1 0x07#8 ≠ .ldStVx x) ∧
    (∃ t, exec (.ldMemVx 15) (ready.setI 0x0FF0#16) = .next t) ∧ ready.params.memInc = false := by
  refine ⟨⟨_, rfl⟩, ?_⟩
  refine ⟨by simp, by simp, by simp, by simp, by simp, by simp, by simp, by simp, by simp, by simp, by simp, by simp,
    ⟨_, rfl⟩, rfl⟩

theorem test_meets_RegistersChangeOnlyWhereNamed :
    ((∃ t, exec (.addReg 1 2) ready = .next t) ∧ (Instr.addReg 1 2).names 2 = false ∧ (2 : RegIx) ≠ 15) ∧
    ((∃ t, exec (.ldVxMem 14) ready = .next t) ∧ (Instr.ldVxMem 14).names 15 = false ∧
      (Instr.ldVxMem 14).setsFlag = false) :=
  ⟨⟨⟨_, rfl⟩, by decide, by decide⟩, ⟨⟨_, rfl⟩, by decide, by decide⟩⟩

theorem test_meets_PlainInstructionsAdvancePcByTwo :
    StandsAtPc (atPc 0x0FFE#16 0x6007#16) 0x6007#16 ∧ decode 0x6007#16 = .ok (.ldImm 0 0x07#8) ∧
    (Instr.ldImm 0 0x07#8).movesPc = false ∧ ∃ t, (atPc 0x0FFE#16 0x6007#16).cycle = .next t := by
  refine ⟨?_, by decide, by decide, ⟨_, rfl⟩⟩
  unfold StandsAtPc; decide

theorem test_meets_OnlySamplersDependOnTheEnvironment :
    (Instr.ldVxDt 0).samples = false ∧ (Instr.drw 0 1 0x5#4).samples = false ∧ (Instr.rnd 0 0xFF#8).samples = true := by
  decide

theorem test_meets_OnlyFiveInstructionsDependOnQuirks :
    (Instr.ldBVx 0).quirky = false ∧ (Instr.jp 0x300#12).quirky = false ∧ (Instr.jpV0 0x300#12).quirky = true := by decide

/-- vZ3 and vZ4. -/
theorem test_meets_ResetEventGivesTheResetState :
    (List.replicate 3584 0x00#8).length ≤ 3584 ∧ 3584 < (List.replicate 3585 0x00#8).length ∧
    ([] : List Byte).length ≤ 3584 := by
  rw [List.length_replicate, List.length_replicate]; decide

theorem test_meets_FirstFetchAfterResetReadsTheImage :
    ∃ t, ready.apply (.reset [0x12#8, 0x34#8]) = .next t ∧ t.fetch = .ok 0x1234#16 := ⟨_, rfl, by decide⟩

/-- vZ2 and vZ5: a state that differs from reset in a register and in memory, on a machine with the defaults. -/
theorem test_meets_StateResetIsResetWithAnEmptyImage :
    (withMem (regs ready [(0, 0x07#8)]) 0x300 [0x01#8]).params = Config.defaults ∧
    withMem (regs ready [(0, 0x07#8)]) 0x300 [0x01#8] ≠ State.reset := by decide

end Sys2Proof.Tests
end

section
/-! SUPPORT. The skips (spec 40_flow.md R113 to R118): every skip is `State.skipIf` of its condition, the
condition does not see the advance of `PC`, and from a fetch in range neither advance of `PC` wraps. -/

namespace Sys2Proof.Machine

/-- The `step` event over a word that decodes runs that instruction, `PC` advanced first (R84). -/
theorem State.cycle_of_standsAtPc {s : State} {w : Word} {i : Instr} (hw : StandsAtPc s w)
    (hd : decode w = .ok i) : s.cycle = exec i (s.setPc (s.pc + 2#16)) := by
  obtain ⟨hpc, hword⟩ := hw
  simp only [State.cycle, s.fetch_ok hpc, hword, State.execute_ok _ hd]

/-- A skip's condition is sampled from registers and keys, never from `PC`. -/
@[simp] theorem skipCondition_setPc (i : Instr) (s : State) (a : Word) :
    i.skipCondition (s.setPc a) = i.skipCondition s := by
  cases i <;> rfl

/-- An instruction with a skip condition does nothing but skip on it. -/
theorem exec_of_skipCondition {i : Instr} {s : State} {c : Bool} (h : i.skipCondition s = some c) :
    exec i s = .next (s.skipIf c) := by
  cases i with
  | seImm x nn => cases h; rfl
  | sneImm x nn => cases h; rw [decide_not]; rfl
  | seReg x y n => cases h; rfl
  | sneReg x y n => cases h; rw [decide_not]; rfl
  | skp x => cases h; rfl
  | sknp x => cases h; rfl
  | _ => cases h

/-- A skip after a fetch in range ends four bytes on or two, without wrap (R25, R118). -/
theorem State.toNat_pc_skipIf_advance (s : State) (c : Bool) (h : s.pc.toNat ≤ 0xFFE) :
    ((s.setPc (s.pc + 2#16)).skipIf c).pc.toNat = s.pc.toNat + (if c then 4 else 2) := by
  cases c with
  | false => exact s.toNat_pc_advance h
  | true =>
    have hadv := s.toNat_pc_advance h
    simp only [skipIf_pc, setPc_pc, if_true, BitVec.toNat_add (s.pc + 2#16), BitVec.toNat_ofNat, hadv]
    omega

end Sys2Proof.Machine

open Sys2Proof Sys2Proof.Machine

/-- Settles O32: the step is the skip on the advanced state, whose condition is the one of the state before. -/
theorem skipStepsOverOneSlot : Obligations.SkipStepsOverOneSlot := by
  intro s w i c hw hd hc
  have hexec : s.cycle = .next ((s.setPc (s.pc + 2#16)).skipIf c) := by
    rw [State.cycle_of_standsAtPc hw hd, exec_of_skipCondition (by rw [skipCondition_setPc, hc])]
  obtain ⟨hpc, -⟩ := hw
  exact ⟨_, hexec, s.toNat_pc_skipIf_advance c hpc, rfl⟩

end

section
/-! SUPPORT. The row blit (spec 43_display.md R181): the covered cells, stated with both wraps, are the cells it
changes. -/

namespace Sys2Proof.Machine

/-- A cell a row blit covers, with the start column wrapped before the offset is added (R181). -/
theorem rowCovers_iff_wrapped (x y : Nat) (bits : Byte) (r : Fin 32) (c : Fin 64) :
    rowCovers x y bits r c = true ↔
      r.val = y % 32 ∧ ∃ j, j < 8 ∧ bits.getLsbD (7 - j) = true ∧ c.val = (x % 64 + j) % 64 := by
  simp only [rowCovers_iff, Nat.mod_add_mod]

/-- A row blit changes exactly the cells it covers. -/
theorem lit_drawRow_ne_iff (fb : Framebuffer) (x y : Nat) (bits : Byte) (r : Fin 32) (c : Fin 64) :
    Framebuffer.lit (drawRow fb x y bits).1 r c ≠ Framebuffer.lit fb r c ↔ rowCovers x y bits r c = true := by
  rw [lit_drawRow]
  cases rowCovers x y bits r c with
  | false => simp
  | true => simp

end Sys2Proof.Machine

open Sys2Proof Sys2Proof.Machine

/-- Settles O44: the changed cells are the covered ones, and the collision is a covered cell that was lit. -/
theorem rowBlitTogglesAndReportsCollision : Obligations.RowBlitTogglesAndReportsCollision := by
  intro fb x y bits
  refine ⟨fun r c => (lit_drawRow_ne_iff fb x y bits r c).trans (rowCovers_iff_wrapped x y bits r c), ?_⟩
  rw [coll_drawRow]
  constructor
  · rintro ⟨r, c, hlit, hcov⟩
    obtain ⟨hr, j, hj, hbit, hc⟩ := (rowCovers_iff_wrapped x y bits r c).mp hcov
    exact ⟨j, r, c, hj, hbit, hr, hc, hlit⟩
  · rintro ⟨j, r, c, hj, hbit, hr, hc, hlit⟩
    exact ⟨r, c, hlit, (rowCovers_iff_wrapped x y bits r c).mpr ⟨hr, j, hj, hbit, hc⟩⟩

end

section
/-! SUPPORT. Conditions (spec 60_exceptions.md): the one inversion of a faulting `exec` (R220 to R223), and the faults a
`step` event's result can be (R9, R227). -/

namespace Sys2Proof.Machine

variable (s : State)

/-- Everything a fault of `exec` can be: a return with no entry, a call with no room, or data past the end of memory. -/
theorem exec_fault_cases {i : Instr} {f : Fault} (h : exec i s = .fault f) :
    (i = .ret ∧ s.sp.val = 0 ∧ f = .stackUnderflow) ∨
    ((∃ nnn, i = .call nnn) ∧ s.sp.val = 16 ∧ f = .stackOverflow) ∨
    (0 < i.dataBytes ∧ 0x1000 < s.base + i.dataBytes ∧ f = .outOfBoundsAccess (max s.base 0x1000)) := by
  cases i with
  | ret =>
    change execRet s = .fault f at h
    rcases Nat.eq_zero_or_pos s.sp.val with h0 | hpos
    · rw [execRet_empty s h0] at h; cases h; exact .inl ⟨rfl, h0, rfl⟩
    · rw [execRet_ok s hpos] at h; cases h
  | call nnn =>
    change execCall nnn s = .fault f at h
    by_cases hroom : s.sp.val < 16
    · rw [execCall_ok s nnn hroom] at h; cases h
    · have hfull : s.sp.val = 16 := by omega
      rw [execCall_full s nnn hfull] at h; cases h; exact .inr (.inl ⟨⟨nnn, rfl⟩, hfull, rfl⟩)
  | drw x y n =>
    change execDrw x y n s = .fault f at h
    by_cases hfit : n.toNat = 0 ∨ s.base + n.toNat ≤ 0x1000
    · obtain ⟨fb, coll, hnext, -⟩ := execDrw_ok s x y n hfit
      rw [hnext] at h; cases h
    · have hn : 0 < n.toNat := by omega
      have hend : 0x1000 < s.base + n.toNat := by omega
      rw [execDrw_error s x y n hn hend] at h; cases h; exact .inr (.inr ⟨hn, hend, rfl⟩)
  | ldBVx x =>
    change execLdBVx x s = .fault f at h
    rcases Nat.lt_or_ge 0x1000 (s.base + 3) with hend | hfit
    · rw [execLdBVx_error s x hend] at h; cases h; exact .inr (.inr ⟨Nat.succ_pos _, hend, rfl⟩)
    · rw [execLdBVx_ok s x hfit] at h; cases h
  | ldMemVx x =>
    change execLdMemVx x s = .fault f at h
    rcases Nat.lt_or_ge 0x1000 (s.base + (x.val + 1)) with hend | hfit
    · rw [execLdMemVx_error s x hend] at h; cases h; exact .inr (.inr ⟨Nat.succ_pos _, hend, rfl⟩)
    · rw [execLdMemVx_ok s x hfit] at h; cases h
  | ldVxMem x =>
    change execLdVxMem x s = .fault f at h
    rcases Nat.lt_or_ge 0x1000 (s.base + (x.val + 1)) with hend | hfit
    · rw [execLdVxMem_error s x hend] at h; cases h; exact .inr (.inr ⟨Nat.succ_pos _, hend, rfl⟩)
    · rw [execLdVxMem_ok s x hfit] at h; cases h
  | _ => cases h

/-- `exec` underflows exactly on a return with an empty stack (R222). -/
theorem exec_eq_stackUnderflow_iff (i : Instr) :
    exec i s = .fault .stackUnderflow ↔ i = .ret ∧ s.sp.val = 0 := by
  constructor
  · intro h
    obtain ⟨hret, hempty, -⟩ | ⟨-, -, hf⟩ | ⟨-, -, hf⟩ := exec_fault_cases s h
    · exact ⟨hret, hempty⟩
    · cases hf
    · cases hf
  · rintro ⟨rfl, hempty⟩
    exact execRet_empty s hempty

theorem State.fetch_of_standsAtPc {w : Word} (h : StandsAtPc s w) : s.fetch = .ok w := by
  obtain ⟨hpc, hword⟩ := h
  rw [s.fetch_ok hpc, hword]

/-- The result is a fault exactly when the outcome is. -/
@[simp] theorem execResult_eq_fault_iff {o : Host.Outcome State Fault Refusal} {f : Fault} :
    execResult o = .fault f ↔ o = .fault f := by
  cases o <;> simp [execResult]

/-- The result over a word that decodes is that of executing the instruction, `PC` advanced first (R84). -/
theorem State.result_of_standsAtPc {w : Word} {i : Instr} (hw : StandsAtPc s w) (hd : decode w = .ok i) :
    s.result = execResult (exec i (s.setPc (s.pc + 2#16))) := by
  simp only [State.result, s.fetch_of_standsAtPc hw, hd]

/-- A faulting result comes from the fetch, or from executing the instruction that stands at `PC` (R227). -/
theorem State.result_fault_cases {f : Fault} (h : s.result = .fault f) :
    (0xFFE < s.pc.toNat ∧ f = .outOfBoundsAccess (max s.pc.toNat 0x1000)) ∨
    (∃ w i, StandsAtPc s w ∧ decode w = .ok i ∧ exec i (s.setPc (s.pc + 2#16)) = .fault f) := by
  rcases Nat.lt_or_ge 0xFFE s.pc.toNat with hout | hin
  · rw [State.result, s.fetch_error hout] at h
    cases h
    exact .inl ⟨hout, rfl⟩
  · cases hd : decode (wordOfBytes (s.mem.read s.pc.toNat) (s.mem.read (s.pc.toNat + 1))) with
    | error r =>
      simp only [State.result, s.fetch_ok hin, hd] at h
      cases h
    | ok i =>
      rw [s.result_of_standsAtPc ⟨hin, rfl⟩ hd, execResult_eq_fault_iff] at h
      exact .inr ⟨_, i, ⟨hin, rfl⟩, hd, h⟩

end Sys2Proof.Machine

open Sys2Proof Sys2Proof.Machine

/-- Settles O12: of the faults of `exec` only an empty return's is StackUnderflow, and a fetch never raises it. -/
theorem stackUnderflowOnlyByReturnWhenEmpty : Obligations.StackUnderflowOnlyByReturnWhenEmpty := by
  refine ⟨fun i s => exec_eq_stackUnderflow_iff s i, fun s => ⟨fun h => ?_, ?_⟩⟩
  · obtain ⟨-, hf⟩ | ⟨w, i, hw, hd, hexec⟩ := s.result_fault_cases h
    · cases hf
    · obtain ⟨rfl, hempty⟩ := (exec_eq_stackUnderflow_iff _ i).mp hexec
      exact ⟨⟨w, hw, hd⟩, hempty⟩
  · rintro ⟨⟨w, hw, hd⟩, hempty⟩
    rw [s.result_of_standsAtPc hw hd, execResult_eq_fault_iff]
    exact execRet_empty _ hempty

end

section
/-! SUPPORT. Tick events in a row (spec R233): `n` of them answer `State.ticks n`. -/

namespace Sys2Proof.Machine

/-- A run of `n` tick events completes, in the state `State.ticks` gives in one expression. -/
theorem State.runEvents_replicate_tick (n : Nat) (s : State) :
    State.runEvents (List.replicate n Event.tick) s = .next (s.ticks n) := by
  induction n generalizing s with
  | zero => rw [State.ticks_zero]; rfl
  | succ n ih =>
    calc State.runEvents (List.replicate (n + 1) Event.tick) s
        = State.runEvents (List.replicate n Event.tick) s.tick := rfl
      _ = .next (s.tick.ticks n) := ih s.tick
      _ = .next (s.ticks (n + 1)) := by rw [State.ticks_succ]

end Sys2Proof.Machine

open Sys2Proof Sys2Proof.Machine

/-- Settles O51: one tick is the two decrements, and `n` ticks are each timer less `n` as a natural number. -/
theorem tickDecrementsAndSaturates : Obligations.TickDecrementsAndSaturates :=
  ⟨fun _ => rfl, fun s n =>
    ⟨s.ticks n, s.runEvents_replicate_tick n, toNat_afterTicks s.dt n, toNat_afterTicks s.st n, rfl⟩⟩

end

section
/-! SUPPORT. Decoding (spec 30_encoding.md R85 to R92): the class dispatch on encoded words, the words of a class from
their fields, and the words of a row of the opcode table. -/

namespace Sys2Proof

/-! ### The classes that select further (R86 to R89) -/

variable {w : Word}

theorem decode_of_fieldOp_0 (h : fieldOp w = 0x0#4) : decode w = decodeClass0 w := by simp [decode, h]

theorem decode_of_fieldOp_8 (h : fieldOp w = 0x8#4) : decode w = decodeClass8 w := by simp [decode, h]

theorem decode_of_fieldOp_E (h : fieldOp w = 0xE#4) : decode w = decodeClassE w := by simp [decode, h]

theorem decode_of_fieldOp_F (h : fieldOp w = 0xF#4) : decode w = decodeClassF w := by simp [decode, h]

theorem decode_encXYN_8 (x y : RegIx) (n : Nibble) :
    decode (encXYN 0x8#4 x y n) = decodeClass8 (encXYN 0x8#4 x y n) :=
  decode_of_fieldOp_8 (fieldOp_encXYN ..)

theorem decode_encXNN_E (x : RegIx) (nn : Byte) : decode (encXNN 0xE#4 x nn) = decodeClassE (encXNN 0xE#4 x nn) :=
  decode_of_fieldOp_E (fieldOp_encXNN ..)

theorem decode_encXNN_F (x : RegIx) (nn : Byte) : decode (encXNN 0xF#4 x nn) = decodeClassF (encXNN 0xF#4 x nn) :=
  decode_of_fieldOp_F (fieldOp_encXNN ..)

/-- The decoder sees the fields of an encoded word, and by them selects the instruction it encodes. -/
theorem decode_encode (i : Instr) : decode (encode i) = .ok i := by
  cases i with
  | cls | ret => rfl
  | jp | call | ldI | jpV0 => simp [encode, decode]
  | seImm | sneImm | ldImm | addImm | rnd => simp [encode, decode]
  | seReg | sneReg | drw => simp [encode, decode]
  | ldReg | orReg | andReg | xorReg | addReg | subReg | shr | subnReg | shl =>
    simp [encode, decode_encXYN_8, decodeClass8]
  | skp | sknp => simp [encode, decode_encXNN_E, decodeClassE]
  | ldVxDt | ldVxK | ldDtVx | ldStVx | addIVx | ldFVx | ldBVx | ldMemVx | ldVxMem =>
    simp [encode, decode_encXNN_F, decodeClassF]

/-- An encoded instruction is two bytes, and the decoder leaves those behind them (R80). -/
theorem decodeBytes_encodeBytes_append (i : Instr) (rest : List Byte) :
    decodeBytes (encodeBytes i ++ rest) = .ok (i, rest) := by
  simp [encodeBytes, decodeBytes, decode_encode]

/-! ### A word is made of its class and the fields of its format -/

theorem encNNN_of_fieldOp {op : Nibble} (h : fieldOp w = op) : encNNN op (fieldNNN w) = w := by
  rw [← h, encNNN_fields]

theorem encXNN_of_fieldOp {op : Nibble} (h : fieldOp w = op) : encXNN op (fieldX w) (fieldNN w) = w := by
  rw [← h, encXNN_fields]

theorem encXYN_of_fieldOp {op : Nibble} (h : fieldOp w = op) : encXYN op (fieldX w) (fieldY w) (fieldN w) = w := by
  rw [← h, encXYN_fields]

theorem encXNN_of_fields {op : Nibble} {nn : Byte} (h : fieldOp w = op) (hnn : fieldNN w = nn) :
    encXNN op (fieldX w) nn = w := by
  rw [← hnn, encXNN_of_fieldOp h]

theorem encXYN_of_fields {op n : Nibble} (h : fieldOp w = op) (hn : fieldN w = n) :
    encXYN op (fieldX w) (fieldY w) n = w := by
  rw [← hn, encXYN_of_fieldOp h]

/-! ### Masked words: a word that matches a row has the row's class and selector -/

theorem fieldOp_of_and_F000 {op : Nibble} (h : w &&& 0xF000#16 = encNNN op 0#12) : fieldOp w = op := by
  rw [and_F000] at h
  simpa using congrArg fieldOp h

theorem fields_of_and_F00F {op n : Nibble} (h : w &&& 0xF00F#16 = encXYN op 0 0 n) :
    fieldOp w = op ∧ fieldN w = n := by
  rw [and_F00F] at h
  exact ⟨by simpa using congrArg fieldOp h, by simpa using congrArg fieldN h⟩

theorem fields_of_and_F0FF {op : Nibble} {nn : Byte} (h : w &&& 0xF0FF#16 = encXNN op 0 nn) :
    fieldOp w = op ∧ fieldNN w = nn := by
  rw [and_F0FF] at h
  exact ⟨by simpa using congrArg fieldOp h, by simpa using congrArg fieldNN h⟩

theorem encNNN_of_row {op : Nibble} (h : w &&& 0xF000#16 = encNNN op 0#12) : encNNN op (fieldNNN w) = w :=
  encNNN_of_fieldOp (fieldOp_of_and_F000 h)

theorem encXNN_of_row {op : Nibble} (h : w &&& 0xF000#16 = encNNN op 0#12) :
    encXNN op (fieldX w) (fieldNN w) = w :=
  encXNN_of_fieldOp (fieldOp_of_and_F000 h)

theorem encXYN_of_row {op : Nibble} (h : w &&& 0xF000#16 = encNNN op 0#12) :
    encXYN op (fieldX w) (fieldY w) (fieldN w) = w :=
  encXYN_of_fieldOp (fieldOp_of_and_F000 h)

theorem encXY_of_row {op n : Nibble} (h : w &&& 0xF00F#16 = encXYN op 0 0 n) :
    encXYN op (fieldX w) (fieldY w) n = w :=
  encXYN_of_fields (fields_of_and_F00F h).1 (fields_of_and_F00F h).2

theorem encX_of_row {op : Nibble} {nn : Byte} (h : w &&& 0xF0FF#16 = encXNN op 0 nn) :
    encXNN op (fieldX w) nn = w :=
  encXNN_of_fields (fields_of_and_F0FF h).1 (fields_of_and_F0FF h).2

/-- A word that matches a row of the opcode table is the encoding of an instruction of that row (R82). -/
theorem exists_encode_of_row (i : Instr) (h : w &&& i.row.1 = i.row.2) : ∃ j, encode j = w ∧ j.row = i.row := by
  cases i with
  | cls => exact ⟨.cls, (BitVec.and_allOnes.symm.trans h).symm, rfl⟩
  | ret => exact ⟨.ret, (BitVec.and_allOnes.symm.trans h).symm, rfl⟩
  | jp => exact ⟨.jp _, encNNN_of_row h, rfl⟩
  | call => exact ⟨.call _, encNNN_of_row h, rfl⟩
  | seImm => exact ⟨.seImm _ _, encXNN_of_row h, rfl⟩
  | sneImm => exact ⟨.sneImm _ _, encXNN_of_row h, rfl⟩
  | seReg => exact ⟨.seReg _ _ _, encXYN_of_row h, rfl⟩
  | ldImm => exact ⟨.ldImm _ _, encXNN_of_row h, rfl⟩
  | addImm => exact ⟨.addImm _ _, encXNN_of_row h, rfl⟩
  | ldReg => exact ⟨.ldReg _ _, encXY_of_row h, rfl⟩
  | orReg => exact ⟨.orReg _ _, encXY_of_row h, rfl⟩
  | andReg => exact ⟨.andReg _ _, encXY_of_row h, rfl⟩
  | xorReg => exact ⟨.xorReg _ _, encXY_of_row h, rfl⟩
  | addReg => exact ⟨.addReg _ _, encXY_of_row h, rfl⟩
  | subReg => exact ⟨.subReg _ _, encXY_of_row h, rfl⟩
  | shr => exact ⟨.shr _ _, encXY_of_row h, rfl⟩
  | subnReg => exact ⟨.subnReg _ _, encXY_of_row h, rfl⟩
  | shl => exact ⟨.shl _ _, encXY_of_row h, rfl⟩
  | sneReg => exact ⟨.sneReg _ _ _, encXYN_of_row h, rfl⟩
  | ldI => exact ⟨.ldI _, encNNN_of_row h, rfl⟩
  | jpV0 => exact ⟨.jpV0 _, encNNN_of_row h, rfl⟩
  | rnd => exact ⟨.rnd _ _, encXNN_of_row h, rfl⟩
  | drw => exact ⟨.drw _ _ _, encXYN_of_row h, rfl⟩
  | skp => exact ⟨.skp _, encX_of_row h, rfl⟩
  | sknp => exact ⟨.sknp _, encX_of_row h, rfl⟩
  | ldVxDt => exact ⟨.ldVxDt _, encX_of_row h, rfl⟩
  | ldVxK => exact ⟨.ldVxK _, encX_of_row h, rfl⟩
  | ldDtVx => exact ⟨.ldDtVx _, encX_of_row h, rfl⟩
  | ldStVx => exact ⟨.ldStVx _, encX_of_row h, rfl⟩
  | addIVx => exact ⟨.addIVx _, encX_of_row h, rfl⟩
  | ldFVx => exact ⟨.ldFVx _, encX_of_row h, rfl⟩
  | ldBVx => exact ⟨.ldBVx _, encX_of_row h, rfl⟩
  | ldMemVx => exact ⟨.ldMemVx _, encX_of_row h, rfl⟩
  | ldVxMem => exact ⟨.ldVxMem _, encX_of_row h, rfl⟩

/-- The word of every instruction matches its row of the opcode table (R82). -/
theorem encode_and_mask : ∀ i : Instr, encode i &&& i.row.1 = i.row.2
  | .cls => Laws.TableRow.cls
  | .ret => Laws.TableRow.ret
  | .jp nnn => Laws.TableRow.jp nnn
  | .call nnn => Laws.TableRow.call nnn
  | .seImm x nn => Laws.TableRow.seImm x nn
  | .sneImm x nn => Laws.TableRow.sneImm x nn
  | .seReg x y n => Laws.TableRow.seReg x y n
  | .ldImm x nn => Laws.TableRow.ldImm x nn
  | .addImm x nn => Laws.TableRow.addImm x nn
  | .ldReg x y => Laws.TableRow.ldReg x y
  | .orReg x y => Laws.TableRow.orReg x y
  | .andReg x y => Laws.TableRow.andReg x y
  | .xorReg x y => Laws.TableRow.xorReg x y
  | .addReg x y => Laws.TableRow.addReg x y
  | .subReg x y => Laws.TableRow.subReg x y
  | .shr x y => Laws.TableRow.shr x y
  | .subnReg x y => Laws.TableRow.subnReg x y
  | .shl x y => Laws.TableRow.shl x y
  | .sneReg x y n => Laws.TableRow.sneReg x y n
  | .ldI nnn => Laws.TableRow.ldI nnn
  | .jpV0 nnn => Laws.TableRow.jpV0 nnn
  | .rnd x nn => Laws.TableRow.rnd x nn
  | .drw x y n => Laws.TableRow.drw x y n
  | .skp x => Laws.TableRow.skp x
  | .sknp x => Laws.TableRow.sknp x
  | .ldVxDt x => Laws.TableRow.ldVxDt x
  | .ldVxK x => Laws.TableRow.ldVxK x
  | .ldDtVx x => Laws.TableRow.ldDtVx x
  | .ldStVx x => Laws.TableRow.ldStVx x
  | .addIVx x => Laws.TableRow.addIVx x
  | .ldFVx x => Laws.TableRow.ldFVx x
  | .ldBVx x => Laws.TableRow.ldBVx x
  | .ldMemVx x => Laws.TableRow.ldMemVx x
  | .ldVxMem x => Laws.TableRow.ldVxMem x

/-! ### The range of the decoder, class by class (R85, R91) -/

/-- Twelve classes have no selector: every word of them is an instruction. -/
theorem decode_of_open_class (h0 : fieldOp w ≠ 0x0#4) (h8 : fieldOp w ≠ 0x8#4) (hE : fieldOp w ≠ 0xE#4)
    (hF : fieldOp w ≠ 0xF#4) : ∃ i, decode w = .ok i ∧ encode i = w := by
  have hop {n : Nibble} (h : (fieldOp w).toNat = n.toNat) : fieldOp w = n := BitVec.eq_of_toNat_eq h
  unfold decode
  split
  case h_1 h => exact (h0 (hop h)).elim
  case h_2 h => exact ⟨_, rfl, encNNN_of_fieldOp (hop h)⟩
  case h_3 h => exact ⟨_, rfl, encNNN_of_fieldOp (hop h)⟩
  case h_4 h => exact ⟨_, rfl, encXNN_of_fieldOp (hop h)⟩
  case h_5 h => exact ⟨_, rfl, encXNN_of_fieldOp (hop h)⟩
  case h_6 h => exact ⟨_, rfl, encXYN_of_fieldOp (hop h)⟩
  case h_7 h => exact ⟨_, rfl, encXNN_of_fieldOp (hop h)⟩
  case h_8 h => exact ⟨_, rfl, encXNN_of_fieldOp (hop h)⟩
  case h_9 h => exact (h8 (hop h)).elim
  case h_10 h => exact ⟨_, rfl, encXYN_of_fieldOp (hop h)⟩
  case h_11 h => exact ⟨_, rfl, encNNN_of_fieldOp (hop h)⟩
  case h_12 h => exact ⟨_, rfl, encNNN_of_fieldOp (hop h)⟩
  case h_13 h => exact ⟨_, rfl, encXNN_of_fieldOp (hop h)⟩
  case h_14 h => exact ⟨_, rfl, encXYN_of_fieldOp (hop h)⟩
  case h_15 h => exact (hE (hop h)).elim
  case h_16 =>
    have hlt := (fieldOp w).isLt
    simp only [imp_false] at *
    exact (hF (hop (show (fieldOp w).toNat = 15 by omega))).elim

/-- The decoder's dispatch: one of the four classes with a selector, or an open class. -/
theorem decode_cases (w : Word) :
    (fieldOp w = 0x0#4 ∧ decode w = decodeClass0 w) ∨ (fieldOp w = 0x8#4 ∧ decode w = decodeClass8 w) ∨
    (fieldOp w = 0xE#4 ∧ decode w = decodeClassE w) ∨ (fieldOp w = 0xF#4 ∧ decode w = decodeClassF w) ∨
    (fieldOp w ∉ [0x0#4, 0x8#4, 0xE#4, 0xF#4] ∧ ∃ i, decode w = .ok i ∧ encode i = w) := by
  by_cases h0 : fieldOp w = 0x0#4
  · exact .inl ⟨h0, decode_of_fieldOp_0 h0⟩
  by_cases h8 : fieldOp w = 0x8#4
  · exact .inr (.inl ⟨h8, decode_of_fieldOp_8 h8⟩)
  by_cases hE : fieldOp w = 0xE#4
  · exact .inr (.inr (.inl ⟨hE, decode_of_fieldOp_E hE⟩))
  by_cases hF : fieldOp w = 0xF#4
  · exact .inr (.inr (.inr (.inl ⟨hF, decode_of_fieldOp_F hF⟩)))
  · exact .inr (.inr (.inr (.inr ⟨by simp [h0, h8, hE, hF], decode_of_open_class h0 h8 hE hF⟩)))

/-! ### The words a selector answers, and those it rejects -/

variable {i : Instr}

theorem encode_of_decodeClass0 (h : decodeClass0 w = .ok i) : encode i = w := by
  unfold decodeClass0 at h
  split at h
  · next hw => cases h; exact hw.symm
  · split at h
    · next hw => cases h; exact hw.symm
    · cases h

theorem encode_of_decodeClass8 (hop : fieldOp w = 0x8#4) (h : decodeClass8 w = .ok i) : encode i = w := by
  unfold decodeClass8 at h
  split at h
  case h_10 => cases h
  all_goals next hn => cases h; exact encXYN_of_fields hop (BitVec.eq_of_toNat_eq hn)

theorem encode_of_decodeClassE (hop : fieldOp w = 0xE#4) (h : decodeClassE w = .ok i) : encode i = w := by
  unfold decodeClassE at h
  split at h
  case h_3 => cases h
  all_goals next hnn => cases h; exact encXNN_of_fields hop (BitVec.eq_of_toNat_eq hnn)

theorem encode_of_decodeClassF (hop : fieldOp w = 0xF#4) (h : decodeClassF w = .ok i) : encode i = w := by
  unfold decodeClassF at h
  split at h
  case h_10 => cases h
  all_goals next hnn => cases h; exact encXNN_of_fields hop (BitVec.eq_of_toNat_eq hnn)

/-- Decoding drops no bit. -/
theorem encode_of_decode (h : decode w = .ok i) : encode i = w := by
  obtain ⟨-, hd⟩ | ⟨hop, hd⟩ | ⟨hop, hd⟩ | ⟨hop, hd⟩ | ⟨-, j, hd, hj⟩ := decode_cases w
  · exact encode_of_decodeClass0 (hd ▸ h)
  · exact encode_of_decodeClass8 hop (hd ▸ h)
  · exact encode_of_decodeClassE hop (hd ▸ h)
  · exact encode_of_decodeClassF hop (hd ▸ h)
  · rw [hd] at h; cases h; exact hj

theorem decodeClass0_error_iff (w : Word) :
    (∃ r, decodeClass0 w = .error r) ↔ w ≠ 0x00E0#16 ∧ w ≠ 0x00EE#16 := by
  unfold decodeClass0
  split_ifs <;> simp_all

theorem decodeClass8_error_iff (w : Word) :
    (∃ r, decodeClass8 w = .error r) ↔ (fieldN w).toNat ∈ [0x8, 0x9, 0xA, 0xB, 0xC, 0xD, 0xF] := by
  have hlt := (fieldN w).isLt
  unfold decodeClass8
  split
  case h_10 =>
    simp only [imp_false] at *
    simp; omega
  all_goals next hn => simp [hn]

theorem decodeClassE_error_iff (w : Word) :
    (∃ r, decodeClassE w = .error r) ↔ (fieldNN w).toNat ∉ [0x9E, 0xA1] := by
  unfold decodeClassE
  split
  case h_3 => simp_all
  all_goals next hnn => simp [hnn]

theorem decodeClassF_error_iff (w : Word) :
    (∃ r, decodeClassF w = .error r) ↔
      (fieldNN w).toNat ∉ [0x07, 0x0A, 0x15, 0x18, 0x1E, 0x29, 0x33, 0x55, 0x65] := by
  unfold decodeClassF
  split
  case h_10 => simp_all
  all_goals next hnn => simp [hnn]

end Sys2Proof

open Sys2Proof

/-- Settles O1: each format's fields are read back from the encoded word, and they select the instruction. -/
theorem decodeUndoesEncode : Obligations.DecodeUndoesEncode :=
  fun i rest => ⟨decode_encode i, decodeBytes_encodeBytes_append i rest⟩

/-- Settles O2: by the class of the word, and in a class with a selector by its value. -/
theorem encodeUndoesDecode : Obligations.EncodeUndoesDecode := fun _ _ => encode_of_decode

/-- Settles O3: the class decides which of the four sets is meant, and its selector whether the word lies in it. -/
theorem unrecognizedWordsAreTheFourSets : Obligations.UnrecognizedWordsAreTheFourSets := by
  intro w
  obtain ⟨hop, hd⟩ | ⟨hop, hd⟩ | ⟨hop, hd⟩ | ⟨hop, hd⟩ | ⟨hop, i, hd, -⟩ := decode_cases w
  · rw [hd, decodeClass0_error_iff]; simp [hop]
  · rw [hd, decodeClass8_error_iff]; simp [hop]
  · rw [hd, decodeClassE_error_iff]; simp [hop]
  · rw [hd, decodeClassF_error_iff]; simp [hop]
  · simp only [List.mem_cons, List.not_mem_nil, or_false, not_or] at hop
    simp [hd, hop]

/-- Settles O4: the word of a decoded instruction matches its row, and a word of a row is the encoding of one of it. -/
theorem decodeFollowsTheOpcodeTable : Obligations.DecodeFollowsTheOpcodeTable := by
  refine ⟨fun w i hd => ?_, fun w i hrow => ?_⟩
  · rw [← encode_of_decode hd]
    exact encode_and_mask i
  · obtain ⟨j, rfl, hj⟩ := exists_encode_of_row i hrow
    exact ⟨j, decode_encode j, hj⟩

/-- Settles O5: the decoder evaluated on the seventeen words. -/
theorem writtenOutWordsDecode : Obligations.WrittenOutWordsDecode := by
  unfold Obligations.WrittenOutWordsDecode
  decide

end

section
/-! SUPPORT. The frame of every instruction (spec 10_state.md R21 to R30): the fields it may write, said once for all of
`exec`, and what follows for each field. -/

namespace Sys2Proof.Machine

variable {i : Instr} {s t : State}

/-! ### The meanings that can fault, inverted: where they complete, and the next state -/

theorem execRet_next (h : execRet s = .next t) :
    ∃ hpos : 0 < s.sp.val, t = { s with pc := s.stack[s.sp.val - 1], sp := ⟨s.sp.val - 1, by omega⟩ } := by
  rcases Nat.eq_zero_or_pos s.sp.val with h0 | hpos
  · rw [execRet_empty s h0] at h; cases h
  · rw [execRet_ok s hpos] at h; cases h; exact ⟨hpos, rfl⟩

theorem execCall_next {nnn : Addr12} (h : execCall nnn s = .next t) :
    ∃ hroom : s.sp.val < 16,
      t = { s with stack := s.stack.set s.sp.val s.pc, sp := ⟨s.sp.val + 1, by omega⟩, pc := addrWord nnn } := by
  by_cases hroom : s.sp.val < 16
  · rw [execCall_ok s nnn hroom] at h; cases h; exact ⟨hroom, rfl⟩
  · rw [execCall_full s nnn (by omega)] at h; cases h

theorem execDrw_next {x y : RegIx} {n : Nibble} (h : execDrw x y n s = .next t) :
    (n.toNat = 0 ∨ s.base + n.toNat ≤ 0x1000) ∧ ∃ fb coll, t = { s with fb := fb }.setV 15 (flagByte coll) := by
  by_cases hfit : n.toNat = 0 ∨ s.base + n.toNat ≤ 0x1000
  · obtain ⟨fb, coll, hd, -⟩ := execDrw_ok s x y n hfit
    rw [hd] at h; cases h; exact ⟨hfit, fb, coll, rfl⟩
  · rw [execDrw_error s x y n (by omega) (by omega)] at h; cases h

theorem execLdBVx_next {x : RegIx} (h : execLdBVx x s = .next t) :
    s.base + 3 ≤ 0x1000 ∧ t = { s with mem := s.mem.place s.base (bcdDigits (s.getV x)) } := by
  rcases Nat.lt_or_ge 0x1000 (s.base + 3) with hend | hfit
  · rw [execLdBVx_error s x hend] at h; cases h
  · rw [execLdBVx_ok s x hfit] at h; cases h; exact ⟨hfit, rfl⟩

theorem execLdMemVx_next {x : RegIx} (h : execLdMemVx x s = .next t) :
    s.base + (x.val + 1) ≤ 0x1000 ∧ t = { s with mem := s.mem.place s.base (s.firstV x) }.advanceI x := by
  rcases Nat.lt_or_ge 0x1000 (s.base + (x.val + 1)) with hend | hfit
  · rw [execLdMemVx_error s x hend] at h; cases h
  · rw [execLdMemVx_ok s x hfit] at h; cases h; exact ⟨hfit, rfl⟩

theorem execLdVxMem_next {x : RegIx} (h : execLdVxMem x s = .next t) :
    s.base + (x.val + 1) ≤ 0x1000 ∧
      t = (s.loadV ((List.range (x.val + 1)).map fun k => s.mem.read (s.base + k))).advanceI x := by
  rcases Nat.lt_or_ge 0x1000 (s.base + (x.val + 1)) with hend | hfit
  · rw [execLdVxMem_error s x hend] at h; cases h
  · rw [execLdVxMem_ok s x hfit] at h; cases h; exact ⟨hfit, rfl⟩

/-- The advance of `I` changes `I` at most. -/
theorem State.advanceI_eq (s : State) (x : RegIx) : s.advanceI x = { s with i := (s.advanceI x).i } := by
  unfold State.advanceI
  split <;> rfl

/-! ### Which fields each instruction may change -/

/-- From `s` to `t` nothing is changed but the fields the instruction may write: what `exec_changesOnly` proves of
every completed instruction. -/
def ChangesOnly (i : Instr) (s t : State) : Prop :=
  match i with
  | .cls => t = { s with fb := t.fb }
  | .drw _ _ _ => t = { s with fb := t.fb, v := t.v }
  | .ret => t = { s with pc := t.pc, sp := t.sp }
  | .call _ => t = { s with pc := t.pc, sp := t.sp, stack := t.stack }
  | .jp _ | .jpV0 _ | .seImm _ _ | .sneImm _ _ | .seReg _ _ _ | .sneReg _ _ _ | .skp _ | .sknp _ =>
    t = { s with pc := t.pc }
  | .ldVxK _ => t = { s with pc := t.pc, v := t.v }
  | .ldI _ | .ldFVx _ => t = { s with i := t.i }
  | .addIVx _ | .ldVxMem _ => t = { s with i := t.i, v := t.v }
  | .ldBVx _ => t = { s with mem := t.mem }
  | .ldMemVx _ => t = { s with mem := t.mem, i := t.i }
  | .ldDtVx _ => t = { s with dt := t.dt }
  | .ldStVx _ => t = { s with st := t.st }
  | _ => t = { s with v := t.v }

/-- The frame of a completed instruction (R119, R143, R166, R207). -/
theorem exec_changesOnly (h : exec i s = .next t) : ChangesOnly i s t := by
  cases i with
  | ret => obtain ⟨-, rfl⟩ := execRet_next h; rfl
  | call nnn => obtain ⟨-, rfl⟩ := execCall_next h; rfl
  | drw x y n => obtain ⟨-, fb, coll, rfl⟩ := execDrw_next h; rfl
  | ldBVx x => obtain ⟨-, rfl⟩ := execLdBVx_next h; rfl
  | ldMemVx x =>
    obtain ⟨-, rfl⟩ := execLdMemVx_next h
    simpa [ChangesOnly] using State.advanceI_eq { s with mem := s.mem.place s.base (s.firstV x) } x
  | ldVxMem x =>
    obtain ⟨-, rfl⟩ := execLdVxMem_next h
    simpa [ChangesOnly] using State.advanceI_eq (s.loadV _) x
  | ldVxK x =>
    cases h
    change s.waitKey x (chooseKey s.input) = _
    cases chooseKey s.input <;> rfl
  | _ => cases h; rfl

/-! ### The frame, field by field -/

namespace ChangesOnly

variable (h : ChangesOnly i s t)
include h

theorem fb_eq (hcls : i ≠ .cls) (hdrw : ∀ x y n, i ≠ .drw x y n) : t.fb = s.fb := by
  cases i with
  | cls => exact absurd rfl hcls
  | drw x y n => exact absurd rfl (hdrw x y n)
  | _ => exact (congrArg State.fb h :)

theorem mem_eq (hbcd : ∀ x, i ≠ .ldBVx x) (hdump : ∀ x, i ≠ .ldMemVx x) : t.mem = s.mem := by
  cases i with
  | ldBVx x => exact absurd rfl (hbcd x)
  | ldMemVx x => exact absurd rfl (hdump x)
  | _ => exact (congrArg State.mem h :)

theorem sp_eq (hret : i ≠ .ret) (hcall : ∀ nnn, i ≠ .call nnn) : t.sp = s.sp := by
  cases i with
  | ret => exact absurd rfl hret
  | call nnn => exact absurd rfl (hcall nnn)
  | _ => exact (congrArg State.sp h :)

theorem stack_eq (hcall : ∀ nnn, i ≠ .call nnn) : t.stack = s.stack := by
  cases i with
  | call nnn => exact absurd rfl (hcall nnn)
  | _ => exact (congrArg State.stack h :)

theorem dt_eq (hset : ∀ x, i ≠ .ldDtVx x) : t.dt = s.dt := by
  cases i with
  | ldDtVx x => exact absurd rfl (hset x)
  | _ => exact (congrArg State.dt h :)

theorem st_eq (hset : ∀ x, i ≠ .ldStVx x) : t.st = s.st := by
  cases i with
  | ldStVx x => exact absurd rfl (hset x)
  | _ => exact (congrArg State.st h :)

theorem i_eq (hset : ∀ nnn, i ≠ .ldI nnn) (hadd : ∀ x, i ≠ .addIVx x) (hfont : ∀ x, i ≠ .ldFVx x)
    (hdump : ∀ x, i ≠ .ldMemVx x) (hload : ∀ x, i ≠ .ldVxMem x) : t.i = s.i := by
  cases i with
  | ldI nnn => exact absurd rfl (hset nnn)
  | addIVx x => exact absurd rfl (hadd x)
  | ldFVx x => exact absurd rfl (hfont x)
  | ldMemVx x => exact absurd rfl (hdump x)
  | ldVxMem x => exact absurd rfl (hload x)
  | _ => exact (congrArg State.i h :)

theorem pc_eq (hpc : i.movesPc = false) : t.pc = s.pc := by
  cases i with
  | ret | jp | call | seImm | sneImm | seReg | sneReg | jpV0 | skp | sknp | ldVxK => cases hpc
  | _ => exact (congrArg State.pc h :)

theorem params_eq : t.params = s.params := by
  cases i with
  | _ => exact (congrArg State.params h :)

theorem reports_eq : t.reports = s.reports := by
  cases i with
  | _ => exact (congrArg State.reports h :)

theorem script_eq : t.script = s.script := by
  cases i with
  | _ => exact (congrArg State.script h :)

theorem draw_eq : t.draw = s.draw := by
  cases i with
  | _ => exact (congrArg State.draw h :)

end ChangesOnly

/-- register-dump and register-load leave `I` alone on a machine with `Q_MEM_INC` false (R164, R165). -/
theorem exec_i_of_memInc_false (h : exec i s = .next t) (hinc : s.params.memInc = false)
    (hset : ∀ nnn, i ≠ .ldI nnn) (hadd : ∀ x, i ≠ .addIVx x) (hfont : ∀ x, i ≠ .ldFVx x) : t.i = s.i := by
  cases i with
  | ldMemVx x => obtain ⟨-, rfl⟩ := execLdMemVx_next h; simp [hinc]
  | ldVxMem x => obtain ⟨-, rfl⟩ := execLdVxMem_next h; simp [hinc]
  | _ => exact (exec_changesOnly h).i_eq hset hadd hfont nofun nofun

/-! ### The register file -/

/-- A flag-writing instruction leaves every register but its destination and register 15 (R22). -/
theorem State.getV_setFlagged_ne (s : State) {x r : RegIx} (b : Byte) (f : Bool) (hx : r ≠ x) (h15 : r ≠ 15) :
    (s.setFlagged x b f).getV r = s.getV r := by
  rw [s.getV_setFlagged, if_neg h15, if_neg hx]

/-- register-load leaves every register above `X` (R165). -/
theorem State.getV_loadV_of_length_le (s : State) (bs : List Byte) {r : RegIx} (h : bs.length ≤ r.val) :
    (s.loadV bs).getV r = s.getV r := by
  rw [s.getV_loadV, List.getD_eq_default _ _ h]

/-- A completed instruction changes a register only if it names it, or as its flag (R21, R22). -/
theorem exec_getV {r : RegIx} (h : exec i s = .next t) (hnames : i.names r = false)
    (hflag : i.setsFlag = false ∨ r ≠ 15) : t.getV r = s.getV r := by
  cases i with
  | ldImm | addImm | ldReg | orReg | andReg | xorReg | rnd | ldVxDt =>
    cases h
    exact s.getV_setV_ne _ (beq_eq_false_iff_ne.mp hnames)
  | addReg | subReg | shr | subnReg | shl =>
    cases h
    exact s.getV_setFlagged_ne _ _ (beq_eq_false_iff_ne.mp hnames) (hflag.resolve_left nofun)
  | drw x y n =>
    obtain ⟨-, fb, coll, rfl⟩ := execDrw_next h
    exact State.getV_setV_ne _ _ (hflag.resolve_left nofun)
  | addIVx x =>
    cases h
    exact State.getV_setV_ne _ _ (hflag.resolve_left nofun)
  | ldVxK x =>
    cases h
    cases chooseKey s.input with
    | none => rfl
    | some k => exact s.getV_setV_ne _ (beq_eq_false_iff_ne.mp hnames)
  | ldVxMem x =>
    obtain ⟨-, rfl⟩ := execLdVxMem_next h
    have hr : x.val < r.val := by simpa [Instr.names] using hnames
    rw [State.getV_advanceI]
    exact s.getV_loadV_of_length_le _ (by simpa using hr)
  | _ => exact (congrArg (fun u => State.getV u r) (exec_changesOnly h) :)

end Sys2Proof.Machine

open Sys2Proof Sys2Proof.Machine

/-- Settles O53: the frame of `exec`, field by field. -/
theorem eachFieldHasFewWriters : Obligations.EachFieldHasFewWriters := by
  intro i s t h
  have hframe := exec_changesOnly h
  refine ⟨hframe.fb_eq, hframe.mem_eq, fun hret hcall => ⟨hframe.sp_eq hret hcall, hframe.stack_eq hcall⟩,
    hframe.dt_eq, hframe.st_eq, fun hset hadd hfont hinc => ?_, hframe.params_eq, hframe.reports_eq,
    hframe.script_eq, hframe.draw_eq⟩
  obtain hinc | ⟨hdump, hload⟩ := hinc
  · exact exec_i_of_memInc_false h hinc hset hadd hfont
  · exact hframe.i_eq hset hadd hfont hdump hload

/-- Settles O54: by the kind of write each instruction makes to the register file. -/
theorem registersChangeOnlyWhereNamed : Obligations.RegistersChangeOnlyWhereNamed :=
  fun _ _ _ _ h hnames hflag => exec_getV h hnames hflag

/-- Settles O55: such an instruction does not write `PC`, and the advance before it does not wrap. -/
theorem plainInstructionsAdvancePcByTwo : Obligations.PlainInstructionsAdvancePcByTwo := by
  intro s t w i hw hd hplain h
  rw [State.cycle_of_standsAtPc hw hd] at h
  rw [(exec_changesOnly h).pc_eq hplain]
  obtain ⟨hpc, -⟩ := hw
  exact s.toNat_pc_advance hpc

end

section
/-! SUPPORT. The outcomes of `exec` (spec 60_exceptions.md R220 to R223, 70_reset_and_hazards.md R268): never a refusal,
and each fault exactly under its own condition, so a next state exactly where none of the three holds. -/

namespace Sys2Proof.Machine

variable (s : State)

/-- No meaning refuses. -/
theorem exec_ne_refused (i : Instr) (r : Refusal) : exec i s ≠ .refused r := by
  cases i with
  | ret => simp only [exec, execRet, raise]; split <;> simp
  | call nnn => simp only [exec, execCall, raise]; split <;> simp
  | drw x y n => simp only [exec, execDrw, raise]; split <;> simp
  | ldBVx x => simp only [exec, execLdBVx, raise]; split <;> simp
  | ldMemVx x => simp only [exec, execLdMemVx, raise]; split <;> simp
  | ldVxMem x => simp only [exec, execLdVxMem, raise]; split <;> simp
  | _ => nofun

/-- `exec` completes or faults. -/
theorem exec_next_or_fault (i : Instr) : (∃ t, exec i s = .next t) ∨ ∃ f, exec i s = .fault f := by
  cases h : exec i s with
  | next t => exact .inl ⟨t, rfl⟩
  | fault f => exact .inr ⟨f, rfl⟩
  | refused r => exact absurd h (exec_ne_refused s i r)

/-- `exec` overflows exactly on a call with a full stack (R221). -/
theorem exec_eq_stackOverflow_iff (i : Instr) :
    exec i s = .fault .stackOverflow ↔ (∃ nnn, i = .call nnn) ∧ s.sp.val = 16 := by
  constructor
  · intro h
    obtain ⟨-, -, hf⟩ | ⟨hcall, hfull, -⟩ | ⟨-, -, hf⟩ := exec_fault_cases s h
    · cases hf
    · exact ⟨hcall, hfull⟩
    · cases hf
  · rintro ⟨⟨nnn, rfl⟩, hfull⟩
    exact execCall_full s nnn hfull

/-- A data access past the end of memory faults with the first bad address (R57, R223). -/
theorem exec_of_data_past_end {i : Instr} (hpos : 0 < i.dataBytes) (hend : 0x1000 < s.base + i.dataBytes) :
    exec i s = .fault (.outOfBoundsAccess (max s.base 0x1000)) := by
  cases i with
  | drw x y n => exact execDrw_error s x y n hpos hend
  | ldBVx x => exact execLdBVx_error s x hend
  | ldMemVx x => exact execLdMemVx_error s x hend
  | ldVxMem x => exact execLdVxMem_error s x hend
  | _ => cases hpos

/-- `exec` leaves memory exactly by a data access past its end (R223). -/
theorem exec_eq_outOfBounds_iff (i : Instr) (a : Nat) :
    exec i s = .fault (.outOfBoundsAccess a) ↔
      0 < i.dataBytes ∧ 0x1000 < s.base + i.dataBytes ∧ a = max s.base 0x1000 := by
  constructor
  · intro h
    obtain ⟨-, -, hf⟩ | ⟨-, -, hf⟩ | ⟨hpos, hend, hf⟩ := exec_fault_cases s h
    · cases hf
    · cases hf
    · cases hf; exact ⟨hpos, hend, rfl⟩
  · rintro ⟨hpos, hend, rfl⟩
    exact exec_of_data_past_end s hpos hend

/-- The limits of R268 are the absence of the three faults. -/
theorem exec_next_iff_fits (i : Instr) : (∃ t, exec i s = .next t) ↔ i.fits s := by
  constructor
  · rintro ⟨t, h⟩
    have hno : ∀ f, exec i s ≠ .fault f := fun f hf => by rw [h] at hf; cases hf
    refine ⟨fun hcall => ?_, fun hret => ?_, ?_⟩
    · have hfull : s.sp.val ≠ 16 := fun hfull => hno _ ((exec_eq_stackOverflow_iff s i).mpr ⟨hcall, hfull⟩)
      omega
    · have hempty : s.sp.val ≠ 0 := fun hempty => hno _ ((exec_eq_stackUnderflow_iff s i).mpr ⟨hret, hempty⟩)
      omega
    · have hend : ¬ (0 < i.dataBytes ∧ 0x1000 < s.i.toNat + i.dataBytes) := fun ⟨hpos, hend⟩ =>
        hno _ (exec_of_data_past_end s hpos hend)
      omega
  · rintro ⟨hcall, hret, hdata⟩
    refine (exec_next_or_fault s i).resolve_right ?_
    rintro ⟨f, h⟩
    obtain ⟨hi, hempty, -⟩ | ⟨hi, hfull, -⟩ | ⟨hpos, hend, -⟩ := exec_fault_cases s h
    · exact absurd (hret hi) (by omega)
    · exact absurd (hcall hi) (by omega)
    · change 0x1000 < s.i.toNat + i.dataBytes at hend
      omega

end Sys2Proof.Machine

open Sys2Proof Sys2Proof.Machine

/-- Settles O11: of the faults of `exec` only a call's with no room is StackOverflow. -/
theorem stackOverflowOnlyByCallWhenFull : Obligations.StackOverflowOnlyByCallWhenFull :=
  fun i s => exec_eq_stackOverflow_iff s i

/-- Settles O13: of the faults of `exec` only a data access past the end is OutOfBoundsAccess. -/
theorem outOfBoundsOnlyByDataPastTheEnd : Obligations.OutOfBoundsOnlyByDataPastTheEnd :=
  fun i s a => exec_eq_outOfBounds_iff s i a

/-- Settles O14: an instruction completes exactly where none of its faults is due. -/
theorem instructionCompletesExactlyIfItFits : Obligations.InstructionCompletesExactlyIfItFits :=
  ⟨fun i s => exec_next_iff_fits s i, fun i s r => exec_ne_refused s i r⟩

end

section
/-! SUPPORT. The step cycle (spec 00_scope.md R2, R9, 60_exceptions.md R227): its result and its outcome together, and
the host's step as a run of events. -/

namespace Sys2Proof.Machine

variable (s : State)

theorem State.standsAtPc_of_fetch {w : Word} (h : s.fetch = .ok w) : StandsAtPc s w := by
  obtain ⟨hpc, hw⟩ := s.fetch_eq_ok h
  exact ⟨hpc, hw.symm⟩

theorem State.cycle_of_unrecognized {w : Word} {r : Reject} (hw : StandsAtPc s w) (hd : decode w = .error r) :
    s.cycle = .next ((s.setPc (s.pc + 2#16)).report w) := by
  simp only [State.cycle, s.fetch_of_standsAtPc hw, State.execute_error _ hd]

theorem State.result_of_unrecognized {w : Word} {r : Reject} (hw : StandsAtPc s w) (hd : decode w = .error r) :
    s.result = .unrecognized w := by
  simp only [State.result, s.fetch_of_standsAtPc hw, hd]

theorem State.cycle_of_fetch_error {f : Fault} (h : s.fetch = .error f) : s.cycle = .fault f := by
  simp [State.cycle, h, raise]

theorem State.result_of_fetch_error {f : Fault} (h : s.fetch = .error f) : s.result = .fault f := by
  simp [State.result, h]

/-- The result of a `step` event and its outcome, together: a fault, a report, or a completed instruction. -/
theorem State.result_cycle_cases :
    (∃ f, s.result = .fault f ∧ s.cycle = .fault f) ∨
    (∃ w r, StandsAtPc s w ∧ decode w = .error r ∧ s.result = .unrecognized w ∧
      s.cycle = .next ((s.setPc (s.pc + 2#16)).report w)) ∨
    (∃ w i t, StandsAtPc s w ∧ decode w = .ok i ∧ exec i (s.setPc (s.pc + 2#16)) = .next t ∧ s.result = .ok ∧
      s.cycle = .next t) := by
  cases hf : s.fetch with
  | error f => exact .inl ⟨f, s.result_of_fetch_error hf, s.cycle_of_fetch_error hf⟩
  | ok w =>
    have hw := s.standsAtPc_of_fetch hf
    cases hd : decode w with
    | error r => exact .inr (.inl ⟨w, r, hw, hd, s.result_of_unrecognized hw hd, s.cycle_of_unrecognized hw hd⟩)
    | ok i =>
      have hres := s.result_of_standsAtPc hw hd
      have hcyc := State.cycle_of_standsAtPc hw hd
      obtain ⟨t, ht⟩ | ⟨f, hx⟩ := exec_next_or_fault (s.setPc (s.pc + 2#16)) i
      · rw [ht] at hres hcyc; exact .inr (.inr ⟨w, i, t, hw, hd, ht, hres, hcyc⟩)
      · rw [hx] at hres hcyc; exact .inl ⟨f, hres, hcyc⟩

/-- A `step` event that answers a next state reported the word at `PC` or completed its instruction. -/
theorem State.cycle_next_cases {s t : State} (h : s.cycle = .next t) :
    (∃ w, StandsAtPc s w ∧ t = (s.setPc (s.pc + 2#16)).report w) ∨
    (∃ w i, StandsAtPc s w ∧ decode w = .ok i ∧ exec i (s.setPc (s.pc + 2#16)) = .next t) := by
  obtain ⟨f, -, hc⟩ | ⟨w, r, hw, -, -, hc⟩ | ⟨w, i, u, hw, hd, hx, -, hc⟩ := s.result_cycle_cases
  · rw [hc] at h; cases h
  · rw [hc] at h; cases h; exact .inl ⟨w, hw, rfl⟩
  · rw [hc] at h; cases h; exact .inr ⟨w, i, hw, hd, hx⟩

theorem State.result_eq_unrecognized_iff (w : Word) :
    s.result = .unrecognized w ↔ StandsAtPc s w ∧ ∃ r, decode w = .error r := by
  constructor
  · intro h
    obtain ⟨f, hr, -⟩ | ⟨w', r, hw, hd, hr, -⟩ | ⟨_, _, _, -, -, -, hr, -⟩ := s.result_cycle_cases
    · rw [hr] at h; cases h
    · rw [hr] at h; cases h; exact ⟨hw, r, hd⟩
    · rw [hr] at h; cases h
  · rintro ⟨hw, r, hd⟩
    exact s.result_of_unrecognized hw hd

theorem step_eq : step s = thenDo s.cycle State.between := rfl

/-- The reset event with an image that fits (R260). -/
theorem State.apply_reset_ok {image : List Byte} (h : image.length ≤ Config.maxImage) :
    s.apply (.reset image) = .next { State.resetWith s.params image with script := s.script, draw := s.draw } := by
  simp only [State.apply, if_pos h]

/-- The reset event with an image that does not fit (R59). -/
theorem State.apply_reset_too_long {image : List Byte} (h : Config.maxImage < image.length) :
    s.apply (.reset image) = .refused (.imageTooLong image.length) := by
  simp only [State.apply, if_neg (Nat.not_le.mpr h)]

/-- The environment's part of the state is moved on between steps, never by a `step` event (R238, R272). -/
theorem State.input_of_cycle {s t : State} (h : s.cycle = .next t) : t.input = s.input := by
  obtain ⟨w, -, rfl⟩ | ⟨w, i, -, -, hx⟩ := State.cycle_next_cases h
  · rfl
  · have hframe := exec_changesOnly hx
    exact State.input_congr s t hframe.script_eq hframe.draw_eq

theorem State.nextInput_ticks (n : Nat) : s.nextInput.ticks n = (s.ticks n).nextInput := rfl

end Sys2Proof.Machine

open Sys2Proof Sys2Proof.Machine

/-- Settles O6: the `step` event over a word that decodes is its instruction, and the host's step adds `between`. -/
theorem stepRunsTheDecodedInstruction : Obligations.StepRunsTheDecodedInstruction := by
  refine ⟨fun s w i hw hd => ?_, fun t => rfl⟩
  rw [step_eq, State.cycle_of_standsAtPc hw hd]

/-- Settles O7: a report is the one way to the result Unrecognized, and it changes `PC` and the record only. -/
theorem unrecognizedWordIsReportedAndPassed : Obligations.UnrecognizedWordIsReportedAndPassed := by
  refine ⟨fun s w => s.result_eq_unrecognized_iff w, fun s w r hw hd => ?_⟩
  have hc := s.cycle_of_unrecognized hw hd
  exact ⟨hc, by rw [step_eq, hc]; rfl⟩

/-- Settles O8: the fetch itself faults, and its fault is the step's. -/
theorem fetchBeyondMemoryFaults : Obligations.FetchBeyondMemoryFaults := by
  intro s hpc
  have hf := s.fetch_error hpc
  have hc := s.cycle_of_fetch_error hf
  exact ⟨hc, by rw [step_eq, hc]; rfl, s.result_of_fetch_error hf⟩

/-- Settles O9: the `step` event leaves the input alone, so the ticks after it are those the input said before it. -/
theorem stepIsOneStepEventThenTicks : Obligations.StepIsOneStepEventThenTicks := by
  intro s
  rw [step_eq]
  cases hc : s.cycle with
  | fault f => simp [State.runEvents, State.apply, hc, thenDo]
  | refused r => simp [State.runEvents, State.apply, hc, thenDo]
  | next t =>
    simp only [State.runEvents, State.apply, hc, thenDo_next, State.runEvents_replicate_tick, State.nextInput_ticks,
      State.between, State.input_of_cycle hc]

/-- Settles O10: a fault, a completed instruction, which leaves the record alone, or a report. -/
theorem stepResultIsTheOutcome : Obligations.StepResultIsTheOutcome := by
  intro s
  obtain ⟨f, hr, hc⟩ | ⟨w, r, -, -, hr, hc⟩ | ⟨w, i, t, -, -, hx, hr, hc⟩ := s.result_cycle_cases
  · exact .inl ⟨f, hr, by rw [step_eq, hc]; rfl⟩
  · exact .inr (.inr ⟨_, w, hr, by rw [step_eq, hc]; rfl, rfl⟩)
  · exact .inr (.inl ⟨t.between, hr, by rw [step_eq, hc]; rfl, (exec_changesOnly hx).reports_eq⟩)

end

section
/-! SUPPORT. The operand forms as numbers (spec 30_encoding.md R83, 40_flow.md R117). -/

namespace Sys2Proof.Machine

theorem toNat_addrWord (nnn : Addr12) : (addrWord nnn).toNat = nnn.toNat := by
  have := nnn.isLt
  simp only [addrWord, BitVec.toNat_setWidth]; omega

theorem toNat_byteWord (b : Byte) : (byteWord b).toNat = b.toNat := by
  have := b.isLt
  simp only [byteWord, BitVec.toNat_setWidth]; omega

/-- The sum of an address field and a byte does not wrap (R117). -/
theorem toNat_addrWord_add_byteWord (nnn : Addr12) (b : Byte) :
    (addrWord nnn + byteWord b).toNat = nnn.toNat + b.toNat := by
  have := nnn.isLt; have := b.isLt
  rw [BitVec.toNat_add, toNat_addrWord, toNat_byteWord]; omega

theorem toNat_addrWord_le (nnn : Addr12) : (addrWord nnn).toNat ≤ 0xFFF := by
  have := nnn.isLt
  rw [toNat_addrWord]; omega

theorem toNat_addrWord_add_byteWord_le (nnn : Addr12) (b : Byte) :
    (addrWord nnn + byteWord b).toNat ≤ 0x10FE := by
  have := nnn.isLt; have := b.isLt
  rw [toNat_addrWord_add_byteWord]; omega

end Sys2Proof.Machine
end

section
/-! SUPPORT. The invariant (spec 10_state.md R25, R26, R110): after a fetch every instruction keeps it, so does every
event, and so does every run of events. -/

namespace Sys2Proof

open Machine

/-- The invariant as an instruction meets it, after the fetch: `PC` is a post-fetch value, so from 0x0002 to 0x1000. -/
def InvAfterFetch (s : State) : Prop :=
  Inv s ∧ 2 ≤ s.pc.toNat ∧ s.pc.toNat ≤ 0x1000

variable {s t : State}

/-- The invariant speaks of memory, `PC` and the stack only. -/
theorem Inv.congr (h : Inv s) (hmem : t.mem = s.mem) (hpc : t.pc = s.pc) (hsp : t.sp = s.sp)
    (hstack : t.stack = s.stack) : Inv t := by
  unfold Inv
  rw [hmem, hpc, hsp, hstack]
  exact h

theorem Inv.setPc (h : Inv s) {a : Word} (ha : a.toNat ≤ 0x10FE) : Inv (s.setPc a) :=
  ⟨h.1, ha, h.2.2⟩

/-- Memory placed in range keeps the invariant. -/
theorem Inv.place (h : Inv s) {a : Nat} {bs : List Byte} (hend : a + bs.length ≤ 0x1000) :
    Inv { s with mem := s.mem.place a bs } :=
  ⟨Memory.wf_place _ _ _ h.1 hend, h.2⟩

/-- After a fetch in range the invariant holds with the tighter bounds on `PC`. -/
theorem invAfterFetch_of_standsAtPc {w : Word} (h : Inv s) (hw : StandsAtPc s w) :
    InvAfterFetch (s.setPc (s.pc + 2#16)) := by
  obtain ⟨hpc, -⟩ := hw
  have hadv := s.toNat_pc_advance hpc
  refine ⟨h.setPc (by omega), ?_, ?_⟩ <;> simp only [State.setPc_pc] <;> omega

namespace InvAfterFetch

variable (h : InvAfterFetch s)
include h

/-- A skip ends at most at 0x1002. -/
theorem inv_skipIf (c : Bool) : Inv (s.skipIf c) := by
  obtain ⟨hinv, -, hle⟩ := h
  refine hinv.setPc ?_
  cases c with
  | false => simp only [Bool.false_eq_true, if_false]; omega
  | true => simp only [if_true, BitVec.toNat_add, BitVec.toNat_ofNat]; omega

/-- wait-for-key goes back to its own address, which is in range. -/
theorem inv_waitKey (x : RegIx) (k : Option (Fin 16)) : Inv (s.waitKey x k) := by
  obtain ⟨hinv, hge, hle⟩ := h
  cases k with
  | none => exact hinv.setPc (by rw [BitVec.toNat_sub, BitVec.toNat_ofNat]; omega)
  | some k => exact hinv

/-- A return goes to an entry in use, and the entries below it stay in use. -/
theorem inv_of_execRet (ht : execRet s = .next t) : Inv t := by
  obtain ⟨⟨hmem, -, hstack⟩, -⟩ := h
  obtain ⟨hpos, rfl⟩ := execRet_next ht
  obtain ⟨-, htop⟩ := hstack ⟨s.sp.val - 1, by omega⟩ (Nat.sub_lt hpos Nat.one_pos)
  exact ⟨hmem, htop.trans (by decide), fun j hj => hstack j (hj.trans (Nat.sub_lt hpos Nat.one_pos))⟩

/-- A call pushes a post-fetch `PC`. -/
theorem inv_of_execCall {nnn : Addr12} (ht : execCall nnn s = .next t) : Inv t := by
  obtain ⟨⟨hmem, -, hstack⟩, hge, hle⟩ := h
  obtain ⟨hroom, rfl⟩ := execCall_next ht
  have haddr := toNat_addrWord_le nnn
  refine ⟨hmem, by simp only; omega, fun j hj => ?_⟩
  simp only at hj
  simp only [Vector.getElem_set]
  split
  · exact ⟨hge, hle⟩
  · next hne => exact hstack j (by omega)

/-- Every instruction that completes after a fetch keeps the invariant. -/
theorem inv_of_exec {i : Instr} (ht : exec i s = .next t) : Inv t := by
  cases i with
  | ret => exact h.inv_of_execRet ht
  | call nnn => exact h.inv_of_execCall ht
  | jp nnn => cases ht; exact h.1.setPc ((toNat_addrWord_le nnn).trans (by decide))
  | jpV0 nnn => cases ht; exact h.1.setPc (toNat_addrWord_add_byteWord_le nnn _)
  | seImm | sneImm | seReg | sneReg | skp | sknp => cases ht; exact h.inv_skipIf _
  | ldVxK x => cases ht; exact h.inv_waitKey x _
  | ldBVx x =>
    obtain ⟨hend, rfl⟩ := execLdBVx_next ht
    exact h.1.place hend
  | ldMemVx x =>
    obtain ⟨hend, rfl⟩ := execLdMemVx_next ht
    have hplaced : Inv { s with mem := s.mem.place s.base (s.firstV x) } := h.1.place (by simpa using hend)
    exact hplaced.congr (by simp) (by simp) (by simp) (by simp)
  | _ =>
    have hframe := exec_changesOnly ht
    exact h.1.congr (ChangesOnly.mem_eq hframe nofun nofun) (ChangesOnly.pc_eq hframe rfl)
      (ChangesOnly.sp_eq hframe nofun nofun) (ChangesOnly.stack_eq hframe nofun)

end InvAfterFetch

/-- A `step` event keeps the invariant. -/
theorem Inv.cycle (h : Inv s) (ht : s.cycle = .next t) : Inv t := by
  obtain ⟨w, hw, rfl⟩ | ⟨w, i, hw, -, hx⟩ := State.cycle_next_cases ht
  · exact (invAfterFetch_of_standsAtPc h hw).1
  · exact (invAfterFetch_of_standsAtPc h hw).inv_of_exec hx

theorem inv_reset : Inv State.reset :=
  ⟨Memory.wf_reset, by decide, fun _ hj => absurd hj (Nat.not_lt_zero _)⟩

/-- A reset with an image that fits leaves the invariant, whatever the font. -/
theorem inv_resetWith (p : Config.Params) {image : List Byte} (himage : image.length ≤ Config.maxImage) :
    Inv (State.resetWith p image) := by
  have hfont : Inv { State.reset with mem := State.reset.mem.place 0x000 p.font.toList } := inv_reset.place (by simp)
  exact hfont.place (by unfold Config.maxImage at himage; unfold Config.progBase; omega)

/-- Every event keeps the invariant. -/
theorem Inv.apply (h : Inv s) {e : Event} (ht : s.apply e = .next t) : Inv t := by
  cases e with
  | step =>
    obtain ⟨u, hu, rfl⟩ := thenDo_eq_next.mp ht
    exact (h.cycle hu).congr rfl rfl rfl rfl
  | tick => cases ht; exact h
  | reset image =>
    rcases Nat.lt_or_ge Config.maxImage image.length with hlong | hfits
    · rw [s.apply_reset_too_long hlong] at ht; cases ht
    · rw [s.apply_reset_ok hfits] at ht; cases ht; exact (inv_resetWith s.params hfits).congr rfl rfl rfl rfl

theorem Inv.runEvents {es : List Event} (h : Inv s) (ht : State.runEvents es s = .next t) : Inv t := by
  induction es generalizing s with
  | nil => cases ht; exact h
  | cons e es ih =>
    unfold State.runEvents at ht
    split at ht
    · next u hu => exact ih (h.apply hu) ht
    · cases ht
    · cases ht

end Sys2Proof

open Sys2Proof Sys2Proof.Machine

/-- Settles O15: the step event keeps the invariant, and the ticks and the next input do not touch what it speaks of. -/
theorem everyStepKeepsTheInvariant : Obligations.EveryStepKeepsTheInvariant := by
  intro s t h ht
  obtain ⟨u, hu, rfl⟩ := thenDo_eq_next.mp (step_eq s ▸ ht)
  exact (Inv.cycle h hu).congr rfl rfl rfl rfl

/-- Settles O16: reset memory is canonical, `PC` is 0x200 and no entry is in use. -/
theorem invariantHoldsAtReset : Obligations.InvariantHoldsAtReset := inv_reset

/-- Settles O17, by induction on the sequence of events. -/
theorem everyRunOfEventsKeepsTheInvariant : Obligations.EveryRunOfEventsKeepsTheInvariant :=
  fun _ _ _ h ht => Inv.runEvents h ht

end

section
/-! SUPPORT. Non-interference (spec 00_scope.md R5, 60_exceptions.md R240, 30_encoding.md R93): the environment's fields
and the parameters are read by the instructions that name them and by no other. -/

namespace Sys2Proof.Machine

variable (s : State) (sc : List Config.Input) (d : Nat) (p : Config.Params)

/-- The state with another environment and other parameters: the fields a plain instruction does not read. -/
def State.withHidden : State := { s with script := sc, draw := d, params := p }

theorem State.withHidden_getV (r : RegIx) : (s.withHidden sc d p).getV r = s.getV r := rfl
theorem State.withHidden_fb : (s.withHidden sc d p).fb = s.fb := rfl
theorem State.withHidden_i : (s.withHidden sc d p).i = s.i := rfl
theorem State.withHidden_readByte (a : Nat) : (s.withHidden sc d p).readByte a = s.readByte a := rfl

theorem State.drawRows_withHidden (x y n k0 : Nat) (r : Framebuffer × Bool) :
    (s.withHidden sc d p).drawRows x y n k0 r = s.drawRows x y n k0 r := by
  induction n generalizing k0 r with
  | zero => rfl
  | succ n ih => simp only [State.drawRows, State.withHidden_i, State.withHidden_readByte, ih]

theorem thenDo_congr {o : Host.Outcome State Fault Refusal} {g g' : State → State}
    (h : ∀ t, o = .next t → g t = g' t) : thenDo o g = thenDo o g' := by
  cases o with
  | next t => exact congrArg Host.Outcome.next (h t rfl)
  | fault f => rfl
  | refused r => rfl

theorem execRet_withHidden :
    execRet (s.withHidden sc d p) = thenDo (execRet s) fun t => t.withHidden sc d p := by
  rcases Nat.eq_zero_or_pos s.sp.val with h0 | hpos
  · rw [execRet_empty s h0]; exact execRet_empty _ h0
  · rw [execRet_ok s hpos]; exact execRet_ok (s.withHidden sc d p) hpos

theorem execCall_withHidden (nnn : Addr12) :
    execCall nnn (s.withHidden sc d p) = thenDo (execCall nnn s) fun t => t.withHidden sc d p := by
  by_cases hroom : s.sp.val < 16
  · rw [execCall_ok s nnn hroom]; exact execCall_ok (s.withHidden sc d p) nnn hroom
  · have hfull : s.sp.val = 16 := by omega
    rw [execCall_full s nnn hfull]; exact execCall_full _ nnn hfull

theorem execDrw_withHidden (x y : RegIx) (n : Nibble) :
    execDrw x y n (s.withHidden sc d p) = thenDo (execDrw x y n s) fun t => t.withHidden sc d p := by
  simp only [execDrw, State.withHidden_getV, State.withHidden_fb, State.drawRows_withHidden]
  cases s.drawRows (s.getV x).toNat (s.getV y).toNat n.toNat 0 (s.fb, false) <;> rfl

theorem execLdBVx_withHidden (x : RegIx) :
    execLdBVx x (s.withHidden sc d p) = thenDo (execLdBVx x s) fun t => t.withHidden sc d p := by
  rcases Nat.lt_or_ge 0x1000 (s.base + 3) with hend | hfit
  · rw [execLdBVx_error s x hend]; exact execLdBVx_error _ x hend
  · rw [execLdBVx_ok s x hfit]; exact execLdBVx_ok (s.withHidden sc d p) x hfit

/-- The advance of `I` depends on the parameters only, of the hidden fields. -/
theorem State.advanceI_withHidden (x : RegIx) :
    (s.withHidden sc d s.params).advanceI x = (s.advanceI x).withHidden sc d s.params := by
  unfold State.advanceI
  change (if s.params.memInc then _ else _) = _
  split <;> rfl

theorem execLdMemVx_withHidden (x : RegIx) :
    execLdMemVx x (s.withHidden sc d s.params) = thenDo (execLdMemVx x s) fun t => t.withHidden sc d s.params := by
  rcases Nat.lt_or_ge 0x1000 (s.base + (x.val + 1)) with hend | hfit
  · rw [execLdMemVx_error s x hend]; exact execLdMemVx_error _ x hend
  · rw [execLdMemVx_ok s x hfit, thenDo_next, execLdMemVx_ok (s.withHidden sc d s.params) x hfit]
    exact congrArg _ (State.advanceI_withHidden { s with mem := s.mem.place s.base (s.firstV x) } sc d x)

theorem execLdVxMem_withHidden (x : RegIx) :
    execLdVxMem x (s.withHidden sc d s.params) = thenDo (execLdVxMem x s) fun t => t.withHidden sc d s.params := by
  rcases Nat.lt_or_ge 0x1000 (s.base + (x.val + 1)) with hend | hfit
  · rw [execLdVxMem_error s x hend]; exact execLdVxMem_error _ x hend
  · rw [execLdVxMem_ok s x hfit, thenDo_next, execLdVxMem_ok (s.withHidden sc d s.params) x hfit]
    exact congrArg _ (State.advanceI_withHidden (s.loadV _) sc d x)

/-- An instruction that does not sample the environment, or whose environment stays, and that does not depend on a
quirk, or whose parameters stay, does the same whatever the hidden fields hold, and leaves them. -/
theorem exec_withHidden {i : Instr} (hsamples : i.samples = false ∨ (sc = s.script ∧ d = s.draw))
    (hquirky : i.quirky = false ∨ p = s.params) :
    exec i (s.withHidden sc d p) = thenDo (exec i s) fun t => t.withHidden sc d p := by
  cases i with
  | ret => exact execRet_withHidden s sc d p
  | call nnn => exact execCall_withHidden s sc d p nnn
  | drw x y n => exact execDrw_withHidden s sc d p x y n
  | ldBVx x => exact execLdBVx_withHidden s sc d p x
  | ldMemVx x => obtain rfl := hquirky.resolve_left nofun; exact execLdMemVx_withHidden s sc d x
  | ldVxMem x => obtain rfl := hquirky.resolve_left nofun; exact execLdVxMem_withHidden s sc d x
  | shr | shl | jpV0 => obtain rfl := hquirky.resolve_left nofun; rfl
  | rnd | skp | sknp => obtain ⟨rfl, rfl⟩ := hsamples.resolve_left nofun; rfl
  | ldVxK x =>
    obtain ⟨rfl, rfl⟩ := hsamples.resolve_left nofun
    change Host.Outcome.next ((s.withHidden s.script s.draw p).waitKey x (chooseKey s.input))
      = .next ((s.waitKey x (chooseKey s.input)).withHidden s.script s.draw p)
    cases chooseKey s.input <;> rfl
  | _ => rfl

end Sys2Proof.Machine

open Sys2Proof Sys2Proof.Machine

/-- Settles O56: the hidden fields with the parameters as they are, which no instruction changes. -/
theorem onlySamplersDependOnTheEnvironment : Obligations.OnlySamplersDependOnTheEnvironment := by
  intro i s sc d hsamples
  refine (exec_withHidden s sc d s.params (.inl hsamples) (.inr rfl)).trans (thenDo_congr fun t ht => ?_)
  rw [State.withHidden, ← (exec_changesOnly ht).params_eq]

/-- Settles O57: the hidden fields with the environment as it is, which no instruction changes. -/
theorem onlyFiveInstructionsDependOnQuirks : Obligations.OnlyFiveInstructionsDependOnQuirks := by
  intro i s p hquirky
  refine (exec_withHidden s s.script s.draw p (.inr ⟨rfl, rfl⟩) (.inl hquirky)).trans (thenDo_congr fun t ht => ?_)
  have hframe := exec_changesOnly ht
  rw [State.withHidden, ← hframe.script_eq, ← hframe.draw_eq]

end

section
/-! SUPPORT. Register, arithmetic, logic, shift and random instructions (spec 41_alu.md R130 to R143): the two shapes of
their next states, the flags as numbers, and the shifts as halving and doubling. -/

namespace Sys2Proof.Machine

variable (s : State)

/-! ### The two shapes of a register update -/

theorem setsRegister_setV (x : RegIx) (b : Byte) : SetsRegister x b s (s.setV x b) :=
  ⟨s.getV_setV_self x b, fun _ hr => s.getV_setV_ne b hr, rfl⟩

/-- The same, with the new value read off the next state. -/
theorem setsRegister_getV_setV (x : RegIx) (b : Byte) : SetsRegister x ((s.setV x b).getV x) s (s.setV x b) := by
  rw [s.getV_setV_self]
  exact setsRegister_setV s x b

theorem setsFlagged_setFlagged (x : RegIx) {r : Byte} {f : Bool} {b flag : Nat} (hr : r.toNat = b)
    (hf : (flagByte f).toNat = flag) : SetsFlagged x b flag s (s.setFlagged x r f) := by
  refine ⟨?_, fun hx => ?_, fun k hx h15 => s.getV_setFlagged_ne r f hx h15, rfl⟩
  · rw [s.getV_setFlagged, if_pos rfl, hf]
  · rw [s.getV_setFlagged, if_neg hx, if_pos rfl, hr]

/-! ### Flags as numbers (R22) -/

theorem toNat_flagByte_decide (c : Prop) [Decidable c] : (flagByte (decide c)).toNat = if c then 1 else 0 := by
  by_cases h : c <;> simp [h]

theorem toNat_flagByte_getLsbD (a : Byte) (k : Nat) : (flagByte (a.getLsbD k)).toNat = a.toNat / 2 ^ k % 2 := by
  rw [BitVec.getLsbD, Nat.testBit_eq_decide_div_mod_eq, toNat_flagByte_decide]
  split <;> omega

theorem toNat_flagByte_lostRight (a : Byte) : (flagByte (lostRight a)).toNat = a.toNat % 2 := by
  rw [lostRight, toNat_flagByte_getLsbD, Nat.pow_zero, Nat.div_one]

theorem toNat_flagByte_lostLeft (a : Byte) : (flagByte (lostLeft a)).toNat = a.toNat / 128 := by
  have := a.isLt
  rw [lostLeft, toNat_flagByte_getLsbD]; omega

/-- The difference modulo 256 is the natural difference, with 256 added on a borrow (R142). -/
theorem toNat_sub_byte (a b : Byte) :
    (a - b).toNat = if b.toNat ≤ a.toNat then a.toNat - b.toNat else a.toNat + 256 - b.toNat := by
  have := a.isLt; have := b.isLt
  rw [BitVec.toNat_sub]
  split <;> omega

/-! ### Shifts (R138, R140) -/

theorem shiftSource_eq_ite (p : Config.Params) (x y : RegIx) :
    shiftSource p x y = if p.shiftSrc = .vx then x else y := by
  cases h : p.shiftSrc <;> simp [shiftSource, h]

theorem toNat_shiftRight_one (a : Byte) : (a >>> 1).toNat = a.toNat / 2 := by
  rw [BitVec.toNat_ushiftRight, Nat.shiftRight_eq_div_pow, Nat.pow_one]

theorem toNat_shiftLeft_one (a : Byte) : (a <<< 1).toNat = 2 * a.toNat % 256 := by
  rw [BitVec.toNat_shiftLeft, Nat.shiftLeft_eq, Nat.pow_one, Nat.mul_comm]

/-- Halving and then doubling loses bit 0. -/
theorem shiftRight_shiftLeft_eq_iff (a : Byte) : (a >>> 1) <<< 1 = a ↔ a.getLsbD 0 = false := by
  have := a.isLt
  rw [← BitVec.toNat_inj, toNat_shiftLeft_one, toNat_shiftRight_one, BitVec.getLsbD,
    Nat.testBit_eq_decide_div_mod_eq, decide_eq_false_iff_not]
  omega

/-- Doubling and then halving loses bit 7. -/
theorem shiftLeft_shiftRight_eq_iff (a : Byte) : (a <<< 1) >>> 1 = a ↔ a.getLsbD 7 = false := by
  have := a.isLt
  rw [← BitVec.toNat_inj, toNat_shiftRight_one, toNat_shiftLeft_one, BitVec.getLsbD,
    Nat.testBit_eq_decide_div_mod_eq, decide_eq_false_iff_not]
  omega

section
variable {s} {t : State} {x y : RegIx} (hsrc : s.params.shiftSrc = .vx) (hx : x ≠ 15)
include hsrc hx

theorem getV_of_shr (h : exec (.shr x y) s = .next t) : t.getV x = s.getV x >>> 1 := by
  cases h
  rw [State.getV_setFlagged, if_neg hx, if_pos rfl, shiftSource_eq_ite, if_pos hsrc]

theorem getV_of_shl (h : exec (.shl x y) s = .next t) : t.getV x = s.getV x <<< 1 := by
  cases h
  rw [State.getV_setFlagged, if_neg hx, if_pos rfl, shiftSource_eq_ite, if_pos hsrc]

end

end Sys2Proof.Machine

open Sys2Proof Sys2Proof.Machine

/-- Settles O18: both meanings are one register write. -/
theorem loadImmediateAndMoveSetOneRegister : Obligations.LoadImmediateAndMoveSetOneRegister :=
  fun x y nn s => ⟨⟨_, rfl, setsRegister_setV s x nn⟩, ⟨_, rfl, setsRegister_setV s x (s.getV y)⟩⟩

/-- Settles O19: one register write of the sum, which `BitVec` takes modulo 256. -/
theorem addImmediateWrapsWithoutFlag : Obligations.AddImmediateWrapsWithoutFlag := by
  intro x nn s
  obtain ⟨hx, hframe⟩ := setsRegister_setV s x (s.getV x + nn)
  exact ⟨_, rfl, by rw [hx, BitVec.toNat_add], hframe⟩

/-- Settles O20: one register write of the bitwise result. -/
theorem logicOpsWorkBitByBit : Obligations.LogicOpsWorkBitByBit := by
  intro x y s
  refine ⟨⟨_, rfl, setsRegister_getV_setV s x _, fun k => ?_⟩, ⟨_, rfl, setsRegister_getV_setV s x _, fun k => ?_⟩,
    ⟨_, rfl, setsRegister_getV_setV s x _, fun k => ?_⟩⟩
  · rw [s.getV_setV_self, BitVec.getLsbD_or]
  · rw [s.getV_setV_self, BitVec.getLsbD_and]
  · rw [s.getV_setV_self, BitVec.getLsbD_xor]

/-- Settles O21: a flagged write of the sum, with the carry as flag. -/
theorem addRegistersSumAndCarry : Obligations.AddRegistersSumAndCarry :=
  fun x _ s => ⟨_, rfl, setsFlagged_setFlagged s x (BitVec.toNat_add _ _) (toNat_flagByte_decide _)⟩

/-- Settles O22: a flagged write of the difference, with no-borrow as flag. -/
theorem subtractsDifferenceAndNoBorrow : Obligations.SubtractsDifferenceAndNoBorrow :=
  fun x _ s =>
    ⟨⟨_, rfl, setsFlagged_setFlagged s x (toNat_sub_byte _ _) (toNat_flagByte_decide _)⟩,
      ⟨_, rfl, setsFlagged_setFlagged s x (toNat_sub_byte _ _) (toNat_flagByte_decide _)⟩⟩

/-- Settles O23: a flagged write of the shifted source, with the lost bit as flag. -/
theorem shiftsHalveAndDouble : Obligations.ShiftsHalveAndDouble := by
  intro x y s a ha
  rw [← shiftSource_eq_ite] at ha
  subst ha
  exact ⟨⟨_, rfl, setsFlagged_setFlagged s x (toNat_shiftRight_one _) (toNat_flagByte_lostRight _)⟩,
    ⟨_, rfl, setsFlagged_setFlagged s x (toNat_shiftLeft_one _) (toNat_flagByte_lostLeft _)⟩⟩

/-- Settles O24: the parameters stay, so both shifts read and write VX, and the two in a row lose one bit. -/
theorem shiftRoundTripKeepsUnlostBits : Obligations.ShiftRoundTripKeepsUnlostBits := by
  intro x y y' s t u hsrc hx
  have hsrc' {i : Instr} (h : exec i s = .next t) : t.params.shiftSrc = .vx := by
    rw [(exec_changesOnly h).params_eq, hsrc]
  refine ⟨fun hr hl => ?_, fun hl hr => ?_⟩
  · rw [getV_of_shl (hsrc' hr) hx hl, getV_of_shr hsrc hx hr, shiftRight_shiftLeft_eq_iff]
  · rw [getV_of_shr (hsrc' hl) hx hr, getV_of_shl hsrc hx hl, shiftLeft_shiftRight_eq_iff]

/-- Settles O25: one register write of the masked byte, and a bit that NN lacks is lost in the mask. -/
theorem randomIsTheInputByteMasked : Obligations.RandomIsTheInputByteMasked := by
  intro x nn s
  refine ⟨_, rfl, setsRegister_setV s x _, fun k hk => ?_⟩
  rw [s.getV_setV_self, BitVec.getLsbD_and, hk, Bool.and_false]

end

section
/-! SUPPORT. Control transfer (spec 40_flow.md R110 to R119), the key skips included (44_input_timers.md R206). -/

namespace Sys2Proof.Machine

variable (s : State)

/-- The offset register of jump-with-offset by its number (R117). -/
theorem offsetReg_eq_ite (p : Config.Params) (nnn : Addr12) :
    offsetReg p nnn = if p.jumpReg = .v0 then 0 else Fin.ofNat 16 (nnn.toNat / 256) := by
  cases h : p.jumpReg with
  | v0 => simp [offsetReg, h]
  | vx => simp [offsetReg, h, Nat.shiftRight_eq_div_pow]

/-- Of two skips on opposite conditions exactly one moves `PC`. -/
theorem State.skipIf_pc_opposite (c : Bool) :
    ((s.skipIf c).pc = s.pc + 2#16 ∧ (s.skipIf (!c)).pc = s.pc) ∨
      ((s.skipIf c).pc = s.pc ∧ (s.skipIf (!c)).pc = s.pc + 2#16) := by
  cases c with
  | false => exact .inr ⟨rfl, rfl⟩
  | true => exact .inl ⟨rfl, rfl⟩

/-- Two instructions that skip on opposite conditions exclude each other. -/
theorem exec_opposite_skips {i j : Instr} {c : Bool} (hi : i.skipCondition s = some c)
    (hj : j.skipCondition s = some !c) :
    ∃ t u, exec i s = .next t ∧ exec j s = .next u ∧
      ((t.pc = s.pc + 2#16 ∧ u.pc = s.pc) ∨ (t.pc = s.pc ∧ u.pc = s.pc + 2#16)) :=
  ⟨_, _, exec_of_skipCondition hi, exec_of_skipCondition hj, s.skipIf_pc_opposite c⟩

end Sys2Proof.Machine

open Sys2Proof Sys2Proof.Machine

/-- Settles O26: `PC` is written and nothing else. -/
theorem jumpSetsPc : Obligations.JumpSetsPc := fun nnn _ => ⟨_, rfl, toNat_addrWord nnn, rfl⟩

/-- Settles O27: the sum of 12 bits and 8 bits fits in 16, and the offset register has the number the spec gives. -/
theorem jumpWithOffsetAddsUnmasked : Obligations.JumpWithOffsetAddsUnmasked := by
  intro nnn s
  rw [← offsetReg_eq_ite]
  exact ⟨_, rfl, toNat_addrWord_add_byteWord nnn _, toNat_addrWord_add_byteWord_le nnn _, rfl⟩

/-- Settles O28: a push of the post-fetch `PC` where there is room, and an overflow where there is none. -/
theorem callPushesThePostFetchPc : Obligations.CallPushesThePostFetchPc := by
  refine fun nnn s => ⟨fun hroom => ?_, fun hfull => execCall_full s nnn hfull⟩
  refine ⟨_, execCall_ok s nnn hroom, toNat_addrWord nnn, rfl, fun j => ?_, rfl⟩
  simp only [Vector.getElem_set, eq_comm]

/-- Settles O29: a pop where there is an entry, and an underflow where there is none. -/
theorem returnPopsThePc : Obligations.ReturnPopsThePc := by
  refine fun s => ⟨fun hpos => ?_, fun hempty => execRet_empty s hempty⟩
  refine ⟨_, execRet_ok s hpos, Nat.sub_add_cancel hpos, fun j hj => ?_, rfl⟩
  have htop : s.sp.val - 1 = j.val := by omega
  simp only [htop]

/-- Settles O30: the return pops the entry the call has just pushed. -/
theorem returnUndoesCall : Obligations.ReturnUndoesCall := by
  intro nnn s t u hcall hsp hstack
  obtain ⟨hroom, rfl⟩ := execCall_next hcall
  have hval : u.sp.val = s.sp.val + 1 := congrArg Fin.val hsp
  refine (execRet_ok u (by omega)).trans ?_
  simp [hstack, hval]

/-- Settles O31: each of the six is `State.skipIf` of its condition. -/
theorem skipsMovePcByTwoOrNothing : Obligations.SkipsMovePcByTwoOrNothing := by
  intro x y nn n s i c h
  have hc : i.skipCondition s = some c := by
    obtain ⟨rfl, rfl⟩ | ⟨rfl, rfl⟩ | ⟨rfl, rfl⟩ | ⟨rfl, rfl⟩ | ⟨rfl, rfl⟩ | ⟨rfl, rfl⟩ := h <;> rfl
  exact ⟨_, exec_of_skipCondition hc, s.skipIf_pc c, rfl⟩

/-- Settles O33: the conditions of each pair are opposite. -/
theorem oppositeSkipsExcludeEachOther : Obligations.OppositeSkipsExcludeEachOther := by
  intro x y nn n n' s i j h
  obtain ⟨rfl, rfl⟩ | ⟨rfl, rfl⟩ | ⟨rfl, rfl, -⟩ := h
  · exact exec_opposite_skips s rfl (congrArg some (decide_not ..))
  · exact exec_opposite_skips s rfl (congrArg some (decide_not ..))
  · exact exec_opposite_skips s rfl rfl

/-- Settles O52: the word is the jump to its own address, and the advance of `PC` is overwritten. -/
theorem jumpToSelfIsTheEndOfARun : Obligations.JumpToSelfIsTheEndOfARun := by
  intro s w hw hself
  have hpc : s.pc.toNat ≤ 0xFFE := hw.1
  have hjump : encode (.jp (BitVec.ofNat 12 s.pc.toNat)) = w := by
    apply BitVec.eq_of_toNat_eq
    rw [encode, toNat_encNNN, hself, BitVec.toNat_ofNat, BitVec.toNat_ofNat]
    omega
  have haddr : addrWord (BitVec.ofNat 12 s.pc.toNat) = s.pc := by
    apply BitVec.eq_of_toNat_eq
    rw [toNat_addrWord, BitVec.toNat_ofNat]
    omega
  rw [State.cycle_of_standsAtPc hw (hjump ▸ decode_encode _)]
  change Host.Outcome.next (s.setPc (addrWord _)) = _
  rw [haddr]
  rfl

end

section
/-! SUPPORT. The address register and the memory transfers (spec 42_index_memory.md R160 to R167). -/

namespace Sys2Proof.Machine

variable (s : State)

/-- What a byte placed by one instruction reads as. -/
theorem Memory.read_place_of_lt (m : Memory) (a k : Nat) (bs : List Byte) (hk : k < bs.length) :
    (m.place a bs).read (a + k) = bs[k] := by
  rw [Memory.read_place, if_pos (by omega), Nat.add_sub_cancel_left, List.getD_eq_getElem _ _ hk]

/-- The digits of store-BCD as they are read back: hundreds, tens and ones (R163). -/
theorem toNat_read_place_bcdDigits (m : Memory) (a : Nat) (b : Byte) :
    ((m.place a (bcdDigits b)).read a).toNat = b.toNat / 100 ∧
    ((m.place a (bcdDigits b)).read (a + 1)).toNat = b.toNat / 10 % 10 ∧
    ((m.place a (bcdDigits b)).read (a + 2)).toNat = b.toNat % 10 := by
  have hlt := b.isLt
  have hread (k : Nat) (hk : k < 3) : (m.place a (bcdDigits b)).read (a + k) = (bcdDigits b)[k]'hk :=
    Memory.read_place_of_lt _ _ _ _ hk
  refine ⟨?_, ?_, ?_⟩
  · rw [show (m.place a (bcdDigits b)).read a = _ from hread 0 (by omega)]
    simp only [bcdDigits, List.getElem_cons_zero, BitVec.toNat_ofNat]; omega
  · rw [hread 1 (by omega)]
    simp only [bcdDigits, List.getElem_cons_succ, List.getElem_cons_zero, BitVec.toNat_ofNat]; omega
  · rw [hread 2 (by omega)]
    simp only [bcdDigits, List.getElem_cons_succ, List.getElem_cons_zero, BitVec.toNat_ofNat]; omega

theorem keepsMemoryOutside_place (a : Nat) (bs : List Byte) :
    KeepsMemoryOutside a bs.length s { s with mem := s.mem.place a bs } := by
  intro c hc
  simp only [Memory.read_place, if_neg hc]

/-- The next state of register-dump reads the registers from `I` on (R164). -/
theorem read_place_firstV (m : Memory) (x k : RegIx) (hk : k.val ≤ x.val) :
    (m.place s.base (s.firstV x)).read (s.base + k.val) = s.getV k := by
  have hlen : k.val < (s.firstV x).length := by rw [s.length_firstV]; omega
  rw [Memory.read_place_of_lt _ _ _ _ hlen, ← s.getD_firstV x k 0x00#8 hk, List.getD_eq_getElem _ _ hlen]

theorem State.advanceI_of_memInc_false (x : RegIx) (h : s.params.memInc = false) : s.advanceI x = s := by
  simp [State.advanceI, h]

theorem State.toNat_advanceI_i (x : RegIx) :
    (s.advanceI x).i.toNat = if s.params.memInc then (s.i.toNat + x.val + 1) % 65536 else s.i.toNat := by
  have := x.isLt
  rw [State.advanceI_i]
  split
  · rw [BitVec.toNat_add, BitVec.toNat_ofNat]; omega
  · rfl

/-- register-load reads the bytes at `I + k` into `V[k]` (R165). -/
theorem State.getV_loadV_read (x k : RegIx) (hk : k.val ≤ x.val) :
    (s.loadV ((List.range (x.val + 1)).map fun k => s.mem.read (s.base + k))).getV k = s.mem.read (s.base + k.val) := by
  rw [s.getV_loadV, List.getD_eq_getElem _ _ (by simp; omega)]
  simp

end Sys2Proof.Machine

open Sys2Proof Sys2Proof.Machine

/-- Settles O34: `I` is written and nothing else. -/
theorem setAddressLoadsNnn : Obligations.SetAddressLoadsNnn := fun nnn _ => ⟨_, rfl, toNat_addrWord nnn, rfl⟩

/-- Settles O35: `I` is the `BitVec` sum, and the flag is a test of the stored value. -/
theorem addToAddressWrapsAndFlagsRange : Obligations.AddToAddressWrapsAndFlagsRange := by
  intro x s
  refine ⟨_, rfl, ?_, ?_, fun r hr => State.getV_setV_ne _ _ hr, rfl⟩
  · rw [State.setV_i, State.setI_i, BitVec.toNat_add, toNat_byteWord]
  · rw [State.getV_setV_self]
    exact toNat_flagByte_decide _

/-- Settles O36: five times a byte does not wrap in 16 bits. -/
theorem loadFontAddressIsFiveTimes : Obligations.LoadFontAddressIsFiveTimes := by
  intro x s
  have hlt := (s.getV x).isLt
  refine ⟨_, rfl, ?_, rfl⟩
  rw [State.setI_i, BitVec.toNat_mul, toNat_byteWord, BitVec.toNat_ofNat, Config.glyphBytes]
  omega

/-- Settles O37: three bytes placed at `I`, which are the digits. -/
theorem storeBcdWritesThreeDigits : Obligations.StoreBcdWritesThreeDigits := by
  intro x s hend
  have hfit : s.base + 3 ≤ 0x1000 := by unfold State.base; omega
  obtain ⟨h0, h1, h2⟩ := toNat_read_place_bcdDigits s.mem s.i.toNat (s.getV x)
  refine ⟨_, execLdBVx_ok s x hfit, h0, h1, h2, ?_, keepsMemoryOutside_place s s.base (bcdDigits (s.getV x)), rfl⟩
  simp only [State.base, h0, h1, h2]
  omega

/-- Settles O38: the registers placed at `I`, and then the advance of `I`. -/
theorem registerDumpStoresTheRegisters : Obligations.RegisterDumpStoresTheRegisters := by
  intro x s hend
  have hfit : s.base + (x.val + 1) ≤ 0x1000 := by unfold State.base; omega
  refine ⟨_, execLdMemVx_ok s x hfit, fun k hk => ?_, fun c hc => ?_, State.toNat_advanceI_i _ x, ?_⟩
  · rw [State.advanceI_mem]
    exact read_place_firstV s s.mem x k hk
  · rw [State.advanceI_mem]
    exact keepsMemoryOutside_place s s.base (s.firstV x) c (by rw [s.length_firstV]; exact hc)
  · exact exec_changesOnly (i := .ldMemVx x) (execLdMemVx_ok s x hfit)

/-- Settles O39: the bytes from `I` on loaded, and then the advance of `I`. -/
theorem registerLoadReadsTheRegisters : Obligations.RegisterLoadReadsTheRegisters := by
  intro x s hend
  have hfit : s.base + (x.val + 1) ≤ 0x1000 := by unfold State.base; omega
  refine ⟨_, execLdVxMem_ok s x hfit, fun k hk => ?_, fun k hk => ?_, State.toNat_advanceI_i _ x, ?_⟩
  · rw [State.getV_advanceI]
    exact s.getV_loadV_read x k hk
  · rw [State.getV_advanceI]
    exact s.getV_loadV_of_length_le _ (by simpa using hk)
  · exact exec_changesOnly (i := .ldVxMem x) (execLdVxMem_ok s x hfit)

/-- Settles O40: with `I` where it was, the load reads the bytes the dump has placed. -/
theorem loadAfterDumpRestoresTheRegisters : Obligations.LoadAfterDumpRestoresTheRegisters := by
  intro x s t v hinc hdump
  obtain ⟨hfit, ht⟩ := execLdMemVx_next hdump
  obtain rfl := ht.trans (State.advanceI_of_memInc_false { s with mem := s.mem.place s.base (s.firstV x) } x hinc)
  refine ⟨_, execLdVxMem_ok { s with mem := s.mem.place s.base (s.firstV x), v := v } x hfit, fun k hk => ?_⟩
  rw [State.getV_advanceI, State.getV_loadV_read _ x k hk]
  exact read_place_firstV s s.mem x k hk

/-- Settles O41: the two bytes of the fetch are two of the bytes placed. -/
theorem storesAreSeenByTheNextFetch : Obligations.StoresAreSeenByTheNextFetch := by
  intro x s t hdump k a hk ha
  obtain ⟨hfit, rfl⟩ := execLdMemVx_next hdump
  have hx := x.isLt
  have hnext : (k + 1).val = k.val + 1 := by simp only [Fin.val_add, Fin.val_one]; omega
  have hpc : a.toNat ≤ 0xFFE := by unfold State.base at hfit; omega
  have hhi := read_place_firstV s s.mem x k (by omega)
  have hlo := read_place_firstV s s.mem x (k + 1) (by omega)
  rw [State.fetch_ok _ hpc]
  simp only [State.setPc_pc, State.setPc_mem, State.advanceI_mem, ha]
  rw [hnext, ← Nat.add_assoc] at hlo
  rw [← hhi, ← hlo]
  rfl

end

section
/-! SUPPORT. The uniqueness of the canonical form of memory (spec 10_state.md R29): the first listed cell of a canonical
list is the first address that does not read as unlisted. -/

namespace Sys2Proof.Machine

/-- The first cell of a canonical list is seen by a read, whatever else holds only cells above it. -/
theorem Memory.read_head_ne {lo k : Nat} {b : Byte} {m m' : Memory} (hm : Memory.wfFrom lo ((k, b) :: m) = true)
    (hm' : Memory.wfFrom (k + 1) m' = true) : Memory.read ((k, b) :: m) k ≠ m'.read k := by
  obtain ⟨-, -, hb, -⟩ := (Memory.wfFrom_cons ..).mp hm
  rw [Memory.read_of_lt _ _ _ hm' (Nat.lt_succ_self k), Memory.read, if_pos rfl]
  exact hb

/-- Two canonical lists that read the same are equal, from any lower bound on. -/
theorem Memory.eq_of_read_eq (lo : Nat) (m m' : Memory) (hm : Memory.wfFrom lo m = true)
    (hm' : Memory.wfFrom lo m' = true) (hread : ∀ a, Memory.read m a = Memory.read m' a) : m = m' := by
  induction m generalizing lo m' with
  | nil =>
    cases m' with
    | nil => rfl
    | cons kb' m' =>
      obtain ⟨k', b'⟩ := kb'
      exact absurd (hread k').symm (Memory.read_head_ne hm' rfl)
  | cons kb m ih =>
    obtain ⟨k, b⟩ := kb
    cases m' with
    | nil => exact absurd (hread k) (Memory.read_head_ne hm rfl)
    | cons kb' m' =>
      obtain ⟨k', b'⟩ := kb'
      obtain ⟨-, hk, hb, htail⟩ := (Memory.wfFrom_cons ..).mp hm
      obtain ⟨-, hk', hb', htail'⟩ := (Memory.wfFrom_cons ..).mp hm'
      rcases Nat.lt_trichotomy k k' with hlt | rfl | hgt
      · have habove : Memory.wfFrom (k + 1) ((k', b') :: m') = true :=
          (Memory.wfFrom_cons ..).mpr ⟨hlt, hk', hb', htail'⟩
        exact absurd (hread k) (Memory.read_head_ne hm habove)
      · have hhead : b = b' := by simpa [Memory.read] using hread k
        have hrest (a : Nat) : Memory.read m a = Memory.read m' a := by
          by_cases ha : a = k
          · rw [ha, Memory.read_of_lt _ _ _ htail (Nat.lt_succ_self k),
              Memory.read_of_lt _ _ _ htail' (Nat.lt_succ_self k)]
          · simpa [Memory.read, ha] using hread a
        rw [hhead, ih (k + 1) m' htail htail' hrest]
      · have habove : Memory.wfFrom (k' + 1) ((k, b) :: m) = true :=
          (Memory.wfFrom_cons ..).mpr ⟨hgt, hk, hb, htail⟩
        exact absurd (hread k').symm (Memory.read_head_ne hm' habove)

end Sys2Proof.Machine

open Sys2Proof Sys2Proof.Machine

/-- Settles O42, by induction on both lists: their first cells have the same address, and then the same byte. -/
theorem canonicalMemoriesAreEqualIfTheyReadEqual : Obligations.CanonicalMemoriesAreEqualIfTheyReadEqual :=
  fun m m' hm hm' hread => Memory.eq_of_read_eq 0 m m' hm hm' hread

end

section
/-! SUPPORT. The display instructions (spec 43_display.md R181 to R184): the cells of a sprite as the statements name
them, and the flag of a collision. -/

namespace Sys2Proof.Machine

variable (s : State)

theorem lit_replicate_zero (r : Fin 32) (c : Fin 64) : Framebuffer.lit (Vector.replicate 32 0#64) r c = false := by
  simp [Framebuffer.lit]

theorem State.spriteCovers_iff (x y n : Nat) (r : Fin 32) (c : Fin 64) :
    s.spriteCovers x y 0 n r c = true ↔ SpriteCovers s x y n r c := by
  simp only [State.spriteCovers, List.any_eq_true, List.mem_range, rowCovers_iff, Nat.zero_add, State.base]
  constructor
  · rintro ⟨k, hk, hr, j, hj, hbit, hc⟩
    exact ⟨k, j, hk, hj, hbit, hr, hc⟩
  · rintro ⟨k, j, hk, hj, hbit, hr, hc⟩
    exact ⟨k, hk, hr, j, hj, hbit, hc⟩

theorem flagByte_eq_one_iff (f : Bool) : flagByte f = 0x01#8 ↔ f = true := by
  cases f <;> decide

/-- A cell toggled twice under one condition is as it was. -/
theorem eq_of_ne_iff_ne : ∀ {a b c : Bool}, (a ≠ b ↔ b ≠ c) → a = c := by decide

/-- draw-sprite in the terms of the statements: the toggled cells and the collision. -/
theorem exec_drw_ok (x y : RegIx) (n : Nibble) (h : n.toNat = 0 ∨ s.i.toNat + n.toNat ≤ 0x1000) :
    ∃ fb coll, exec (.drw x y n) s = .next ({ s with fb := fb }.setV 15 (flagByte coll)) ∧
      (∀ r c, Framebuffer.lit fb r c ≠ s.display r c ↔
        SpriteCovers s (s.getV x).toNat (s.getV y).toNat n.toNat r c) ∧
      (coll = true ↔ ∃ r c, s.display r c = true ∧ SpriteCovers s (s.getV x).toNat (s.getV y).toNat n.toNat r c) := by
  obtain ⟨fb, coll, hexec, hlit, hcoll⟩ := execDrw_ok s x y n h
  refine ⟨fb, coll, hexec, fun r c => ?_, ?_⟩
  · rw [hlit, State.display, ← s.spriteCovers_iff]
    cases s.spriteCovers (s.getV x).toNat (s.getV y).toNat 0 n.toNat r c <;> simp
  · simp only [hcoll, s.spriteCovers_iff, State.display]

end Sys2Proof.Machine

open Sys2Proof Sys2Proof.Machine

/-- Settles O43: the framebuffer is the zero one. -/
theorem clearScreenUnlightsEveryCell : Obligations.ClearScreenUnlightsEveryCell :=
  fun _ => ⟨_, rfl, lit_replicate_zero, rfl⟩

/-- Settles O45: the rows together toggle the sprite's cells, and the collision of all rows is written once, last. -/
theorem drawSpriteTogglesAndSetsCollision : Obligations.DrawSpriteTogglesAndSetsCollision := by
  intro x y n s hfit
  obtain ⟨fb, coll, hexec, hcells, hcoll⟩ := exec_drw_ok s x y n hfit
  refine ⟨_, hexec, hcells, fun hlit => ?_, fun hlit => ?_, fun r hr => State.getV_setV_ne _ _ hr, rfl⟩
  · rw [State.getV_setV_self, hcoll.mpr hlit, flagByte_true]
  · rw [State.getV_setV_self, Bool.eq_false_iff.mpr fun h => hlit (hcoll.mp h), flagByte_false]

/-- Settles O46: both draws cover the same cells, and a cell toggled twice is as it was. -/
theorem drawingTwiceRestoresTheScreen : Obligations.DrawingTwiceRestoresTheScreen := by
  intro x y n s t hfirst
  obtain ⟨hfit, -⟩ := execDrw_next hfirst
  obtain ⟨fb, coll, hexec, hcells, -⟩ := exec_drw_ok s x y n hfit
  obtain rfl := Host.Outcome.next.inj (hexec.symm.trans hfirst)
  obtain ⟨fb', coll', hexec', hcells', hcoll'⟩ := exec_drw_ok { s with fb := fb } x y n hfit
  refine ⟨_, hexec', Framebuffer.ext _ _ fun r c => ?_, ?_⟩
  · exact eq_of_ne_iff_ne ((hcells' r c).trans (hcells r c).symm)
  · rw [State.getV_setV_self, flagByte_eq_one_iff, hcoll']
    rfl

end

section
/-! SUPPORT. The keys and the timers (spec 44_input_timers.md R200 to R207). -/

namespace Sys2Proof.Machine

/-- wait-for-key finds no key exactly if none is pressed (R203). -/
theorem chooseKey_eq_none_iff (inp : Config.Input) : chooseKey inp = none ↔ inp.keys = 0x0000#16 :=
  searchKey_all_none inp.keys inp.pick

theorem keyPressed_of_chooseKey {inp : Config.Input} {k : Fin 16} (h : chooseKey inp = some k) :
    inp.keys.getLsbD k.val = true :=
  keyPressed_of_searchKey inp.keys 16 inp.pick k h

/-- The free choice falls on the key it begins at, if that key is pressed. -/
theorem chooseKey_of_pressed {inp : Config.Input} (h : inp.keys.getLsbD inp.pick.val = true) :
    chooseKey inp = some inp.pick :=
  searchKey_of_pressed inp.keys 15 inp.pick h

theorem exec_ldVxK (x : RegIx) (s : State) : exec (.ldVxK x) s = .next (s.waitKey x (chooseKey s.input)) := rfl

theorem State.waitKey_none (s : State) (x : RegIx) : s.waitKey x none = s.setPc (s.pc - 2#16) := rfl

theorem State.waitKey_some (s : State) (x : RegIx) (k : Fin 16) :
    s.waitKey x (some k) = s.setV x (BitVec.ofNat 8 k.val) := rfl

end Sys2Proof.Machine

open Sys2Proof Sys2Proof.Machine

/-- Settles O47: by whether the search finds a key, which it does exactly if one is pressed. -/
theorem waitForKeyPollsOrStoresAPressedKey : Obligations.WaitForKeyPollsOrStoresAPressedKey := by
  intro x s
  refine ⟨fun hnone => ?_, fun hsome => ?_⟩
  · rw [exec_ldVxK, (chooseKey_eq_none_iff _).mpr hnone]
    rfl
  · obtain ⟨k, hk⟩ := Option.ne_none_iff_exists'.mp (mt (chooseKey_eq_none_iff s.input).mp hsome)
    refine ⟨k, s.setV x (BitVec.ofNat 8 k.val), ?_, keyPressed_of_chooseKey hk, setsRegister_setV s x _⟩
    rw [exec_ldVxK, hk, State.waitKey_some]

/-- Settles O48: with the free choice at the key itself. -/
theorem anyPressedKeyCanBeStored : Obligations.AnyPressedKeyCanBeStored := by
  intro x s k hk
  have hchoice : chooseKey { s.input with pick := k } = some k := chooseKey_of_pressed hk
  refine ⟨k, State.setV { s with script := { s.input with pick := k } :: s.script.tail } x (BitVec.ofNat 8 k.val), ?_,
    State.getV_setV_self _ _ _⟩
  exact congrArg (fun o => Host.Outcome.next (State.waitKey _ x o)) hchoice

/-- Settles O49: the rewind undoes the advance of the step event. -/
theorem waitingForAKeyChangesNothing : Obligations.WaitingForAKeyChangesNothing := by
  intro s w x hw hd hkeys
  have hnone : chooseKey (s.setPc (s.pc + 2#16)).input = none := (chooseKey_eq_none_iff _).mpr hkeys
  rw [State.cycle_of_standsAtPc hw hd, exec_ldVxK, hnone, State.waitKey_none, State.setPc_pc, BitVec.add_sub_cancel]
  rfl

/-- Settles O50: one register write, or one timer written. -/
theorem timerInstructionsMoveOneByte : Obligations.TimerInstructionsMoveOneByte :=
  fun x s => ⟨⟨_, rfl, setsRegister_setV s x s.dt⟩, ⟨_, rfl, rfl, rfl⟩, ⟨_, rfl, rfl, bne_iff_ne, rfl⟩⟩

end

section
/-! SUPPORT. Reset (spec 70_reset_and_hazards.md R260, R261, 20_memory.md R52, R59): what memory holds after it. -/

namespace Sys2Proof.Machine

/-- Above the font every cell that nothing has written is zero (R32). -/
theorem Memory.unlisted_of_ge {a : Nat} (h : 80 ≤ a) : Memory.unlisted a = 0x00#8 :=
  List.getD_eq_default _ _ h

/-- Memory after a reset: the machine's font, the image at 0x200, and zero elsewhere. -/
theorem State.read_resetWith (p : Config.Params) (image : List Byte) (a : Nat) :
    (State.resetWith p image).mem.read a =
      if a < 80 then p.font.toList.getD a 0x00#8
      else if 0x200 ≤ a ∧ a < 0x200 + image.length then image.getD (a - 0x200) 0x00#8
      else 0x00#8 := by
  have hlen : p.font.toList.length = 80 := Vector.length_toList
  simp only [State.resetWith, Memory.read_place, Config.progBase, hlen]
  by_cases hfont : a < 80
  · rw [if_neg (by omega), if_pos (by omega), if_pos hfont, Nat.sub_zero]
  · rw [if_neg hfont]
    congr 1
    rw [if_neg (by omega), Memory.read, Memory.unlisted_of_ge (by omega)]

theorem State.read_resetWith_image (p : Config.Params) {image : List Byte} {k : Nat} (hk : k < image.length) :
    (State.resetWith p image).mem.read (0x200 + k) = image[k] := by
  rw [State.read_resetWith, if_neg (by omega), if_pos (by omega), Nat.add_sub_cancel_left, List.getD_eq_getElem _ _ hk]

/-- The default font placed in empty memory lists no cell: it is what unlisted cells read as. -/
theorem Memory.place_font : Memory.place [] 0x000 Config.font.toList = [] := by
  refine Memory.eq_of_read_eq 0 _ _ (Memory.wf_place [] _ _ rfl (by simp)) rfl fun a => ?_
  have hlen : Config.font.toList.length = 80 := Vector.length_toList
  rw [Memory.read_place, hlen]
  split
  · rfl
  · rfl

theorem State.reset_eq_resetWith : State.reset = State.resetWith Config.defaults [] := by
  rw [State.resetWith, Config.defaults, Memory.place_font]
  rfl

/-- The zeros of reset (R260). -/
theorem State.getV_reset (r : RegIx) : State.reset.getV r = 0x00#8 := by
  simp [State.getV, State.reset]

theorem State.stack_reset (j : Fin 16) : State.reset.stack[j.val] = 0x0000#16 := by
  simp [State.reset]

theorem State.display_reset (r : Fin 32) (c : Fin 64) : State.reset.display r c = false :=
  lit_replicate_zero r c

end Sys2Proof.Machine

open Sys2Proof Sys2Proof.Machine

/-- Settles O58: the state of `State.resetWith`, whose memory holds the font and the image. -/
theorem resetEventGivesTheResetState : Obligations.ResetEventGivesTheResetState := by
  intro s image
  refine ⟨fun hfits => ?_, fun hlong => s.apply_reset_too_long hlong⟩
  exact ⟨_, s.apply_reset_ok hfits, rfl, rfl, State.getV_reset, rfl, rfl, rfl, State.stack_reset, State.display_reset,
    rfl, rfl, fun a _ => State.read_resetWith s.params image a⟩

/-- Settles O59: the two bytes at 0x200, where `PC` stands, are the first two of the image. -/
theorem firstFetchAfterResetReadsTheImage : Obligations.FirstFetchAfterResetReadsTheImage := by
  intro s t b0 b1 rest ht
  rcases Nat.lt_or_ge Config.maxImage (b0 :: b1 :: rest).length with hlong | hfits
  · rw [s.apply_reset_too_long hlong] at ht; cases ht
  · obtain rfl := Host.Outcome.next.inj ((s.apply_reset_ok hfits).symm.trans ht)
    have hb0 := State.read_resetWith_image s.params (image := b0 :: b1 :: rest) (k := 0) (by simp)
    have hb1 := State.read_resetWith_image s.params (image := b0 :: b1 :: rest) (k := 1) (by simp)
    rw [State.fetch_ok _ (show Config.pcReset.toNat ≤ 0xFFE by decide)]
    exact congrArg Except.ok (congrArg₂ wordOfBytes hb0 hb1)

/-- Settles O60: the default font is what unlisted cells read as, so placing it changes nothing. -/
theorem stateResetIsResetWithAnEmptyImage : Obligations.StateResetIsResetWithAnEmptyImage := by
  refine ⟨State.reset_eq_resetWith, fun s hs => ?_, rfl, rfl, rfl, rfl, State.stack_reset, State.getV_reset, rfl, rfl,
    rfl, rfl, State.display_reset, fun a => ?_⟩
  · rw [s.apply_reset_ok (Nat.zero_le _), hs, ← State.reset_eq_resetWith]
  · rw [State.reset_eq_resetWith, State.read_resetWith]
    simp only [List.getD_nil, ite_self]
    rfl

end
